-- ==== Sys2Proof/Word.lean ====
section
/-! DEFINITION. The widths of the codec's values and the fourteen named fields of a frame (00_scope.md R5, R6, R8). -/

namespace Sys2Proof

/-- A byte, an unsigned integer 0 to 255 (R6). -/
abbrev Byte := BitVec 8

/-- A field register or a system register as the host sees it: `FIELD_W` = `SR_W` = 16 bits (R5). -/
abbrev Half := BitVec 16

/-- A command word or a response word: `CMD_W` = `RSP_W` = 32 bits (R5). -/
abbrev CmdWord := BitVec 32

/-- The fourteen named fields by their names (R8), frame offsets 1 to 14 in this order.
Each value is an unsigned integer 0 to 65535, the range R58 gives `Encode`'s input in this hardware. -/
structure NamedFields where
  mode : Half
  ctr : Half
  res : Half
  ch : Half
  cmd : Half
  fmt : Half
  d0 : Half
  d1 : Half
  d2 : Half
  d3 : Half
  id0 : Half
  id1 : Half
  id2 : Half
  id3 : Half
deriving DecidableEq, Repr

end Sys2Proof
end

