-- ==== Sys2Proof/Config.lean ====
section
/-! DEFINITION. The implementation parameters of 00_scope.md R5.

The spec fixes every one but `CMD_VALID`; the fixed ones stand as numerals or definitions where they are used:
`FRAME_LEN` = 17, `N_CONTENT` = 15, `N_NAMED` = 14 (`Machine.frameOf`, `Machine.decodeUnit`, `Machine.fieldList`),
`ST_TX`, `SP_TX` (`Machine.stTx`, `Machine.spTx`), `FIELD_W` = `SR_W` = 16 (`Half`), `CMD_W` = `RSP_W` = 32 (`CmdWord`),
`BLEN_MAX` = 255 (`Machine.pushCount`), `MODE_VALID`, `CTR_VALID` (`Machine.modeValid`, `Machine.ctrValid`),
`STRICT_RESET` = 1 (`Machine.State.reset`). -/

namespace Sys2Proof.Config

/-- The members of `CMD_VALID` beyond the six that R44 names: OPEN (D7), so a constant with no body. DESIGN CHOICE: the
parameter R5 gives the model as an argument is this constant; a statement that rests on it holds for every admissible
`CMD_VALID` (log 9). -/
opaque cmdFurther : Byte → Bool

end Sys2Proof.Config
end

