-- ==== Sys2Proof/Machine/Operands.lean ====
section
/-! DEFINITION. The operand forms: the three index spaces (20_memory.md R25, R27), the relation between bytes and
registers (R29), and the pure functions on values, Checksum, FieldOk, Encode and Decode (40_codec_ops.md R57 to R60). -/

namespace Sys2Proof.Machine

/-! ### Index spaces -/

/-- A field register index: 0 to 14 (R25). -/
def fieldIndexOk (idx : Byte) : Bool := decide (idx.toNat ≤ 14)

/-- A frame-buffer offset: 0 to 16 (R25). -/
def bufferOffsetOk (idx : Byte) : Bool := decide (idx.toNat ≤ 16)

/-- The number of a system register: 0 to 3 (R15, R25). -/
def sysRegOk (idx : Byte) : Bool := decide (idx.toNat ≤ 3)

/-- A system register the host may write: only 0, `CTRL` (R15, R74). -/
def sysRegWritable (idx : Byte) : Bool := decide (idx.toNat = 0)

/-! ### Bytes and registers -/

/-- `zext_16` of a byte (R7, R29). -/
def zext16 (b : Byte) : Half := b.setWidth 16

/-- `v[7:0]` (R29). -/
def lowByte (v : Half) : Byte := v.setWidth 8

/-! ### Sentinels and enumerations -/

/-- `ST_TX`, the start sentinel of a command frame (R5). -/
def stTx : Byte := 171

/-- `SP_TX`, the stop sentinel of a command frame (R5). -/
def spTx : Byte := 172

/-- `MODE_VALID` = 0 to 5 (R5, R42). -/
def modeValid (v : Nat) : Bool := decide (v ≤ 5)

/-- `CTR_VALID` = 0 to 8 (R5, R43). -/
def ctrValid (v : Nat) : Bool := decide (v ≤ 8)

/-- The six members of `CMD_VALID` the source names (R44). -/
def cmdNamed (v : Nat) : Bool := v == 0 || v == 2 || v == 20 || v == 21 || v == 25 || v == 130

/-- `CMD_VALID` (R5, R44): a set of byte values that holds the six named ones; the rest is open (D7, log 9). -/
def cmdValid (v : Nat) : Bool := cmdNamed v || (decide (v ≤ 255) && Config.cmdFurther (BitVec.ofNat 8 v))

/-! ### The pure functions -/

/-- `Checksum` (R57): the sum over unsigned integers, reduced mod 256. -/
def checksum (c : List Byte) : Byte := BitVec.ofNat 8 (c.map BitVec.toNat).sum

/-- `FieldOk(k, v)` (R59). -/
def fieldOk (k : Nat) (v : Half) : Bool :=
  decide (v.toNat ≤ 255)
    && (k != 1 || modeValid v.toNat)
    && (k != 2 || ctrValid v.toNat)
    && (k != 5 || cmdValid v.toNat)

/-- The first field, in ascending offset from `k`, that fails `FieldOk` (R58, R82). -/
def firstBad : Nat → List Half → Option Nat
  | _, [] => none
  | k, v :: vs => if fieldOk k v then firstBad (k + 1) vs else some k

/-- The named fields in frame-offset order, offsets 1 to 14 (R8). -/
def fieldList (f : NamedFields) : List Half :=
  [f.mode, f.ctr, f.res, f.ch, f.cmd, f.fmt, f.d0, f.d1, f.d2, f.d3, f.id0, f.id1, f.id2, f.id3]

/-- The fifteen content bytes of a command frame: the start sentinel, then the named fields (R38, R41). -/
def content (f : List Half) : List Byte := stTx :: f.map lowByte

/-- The command frame of fields that have passed their checks (R58): content, checksum, stop sentinel. -/
def frameOf (f : List Half) : List Byte := content f ++ [checksum (content f), spTx]

/-- `Encode` (R58) of the values at offsets 1, 2, ..: the frame, or the offset of the first bad field. -/
def encodeFrame (f : List Half) : Except Nat (List Byte) :=
  match firstBad 1 f with
  | some k => .error k
  | none => .ok (frameOf f)

/-- What `Decode` returns (R60): the content fields `g[0..14]`, `crc_ok` and the recomputed checksum `s`. -/
structure Decoded where
  content : List Byte
  crcOk : Bool
  sum : Byte
deriving DecidableEq, Repr

/-- The two causes of MalformedFrame (R60, R77, R78), the second with the recomputed checksum. -/
inductive Malformed where
  | length
  | checksum (computed : Byte)
deriving DecidableEq, Repr

/-- `Decode(b, n, strict)` (R60): the length is judged before the checksum (R82), and nothing else is checked (R61). -/
def decodeUnit (b : List Byte) (n : Nat) (strict : Bool) : Except Malformed Decoded :=
  if n = 17 then
    let s := checksum (b.take 15)
    let ok := s == b.getD 15 0
    if !ok && strict then .error (.checksum s)
    else .ok { content := b.take 15, crcOk := ok, sum := s }
  else .error .length

end Sys2Proof.Machine
end

