-- ==== Sys2Proof/Syntax.lean ====
section
/-! DEFINITION. The instructions: one constructor per row of spec/opcode_table.json (30_encoding.md R47, R48, R50). -/

namespace Sys2Proof

/-- The 33 rows of the opcode table: ten operations (R50), two frame rows (R47), twenty-one enumeration rows (R48).
An operand stands here as the table's field gives it; which values are legal is `Instr.WellFormed`. -/
inductive Instr where
  /-- NOP, `op` 0x00 (R67). -/
  | nop
  /-- WRF `idx`, `imm`, `op` 0x01 (R68). -/
  | wrf (idx : Byte) (imm : Half)
  /-- RDF `idx`, `op` 0x02 (R69). -/
  | rdf (idx : Byte)
  /-- PUSH `imm[7:0]`, `op` 0x03 (R70). -/
  | push (imm : Byte)
  /-- RDB `idx`, `op` 0x04 (R71). -/
  | rdb (idx : Byte)
  /-- BCLR, `op` 0x05 (R72). -/
  | bclr
  /-- ENC, `op` 0x06 (R63). -/
  | enc
  /-- DEC, `op` 0x07 (R65). -/
  | dec
  /-- RDSR `idx`, `op` 0x08 (R73). -/
  | rdsr (idx : Byte)
  /-- WRSR `idx`, `imm`, `op` 0x09 (R74). -/
  | wrsr (idx : Byte) (imm : Half)
  /-- FRAME.CMD, the command frame of these named fields (R38, R58).
  Start, checksum and stop are no operands (R39). -/
  | frameCmd (fields : NamedFields)
  /-- FRAME.RSP, a unit of bytes taken as a response frame (R38, R60). -/
  | frameRsp (bytes : List Byte)
  /-- MODE.TX (R42). -/
  | modeTx
  /-- MODE.RX (R42). -/
  | modeRx
  /-- MODE.TX_F (R42). -/
  | modeTxF
  /-- MODE.RX_F (R42). -/
  | modeRxF
  /-- MODE.SERVICE_F (R42). -/
  | modeServiceF
  /-- MODE.OTA_F (R42). -/
  | modeOtaF
  /-- CTR.CMD (R43). -/
  | ctrCmd
  /-- CTR.BROADCAST_CMD (R43). -/
  | ctrBroadcastCmd
  /-- CTR.READ (R43). -/
  | ctrRead
  /-- CTR.BIND_START (R43). -/
  | ctrBindStart
  /-- CTR.BIND_STOP (R43). -/
  | ctrBindStop
  /-- CTR.CLEAR (R43). -/
  | ctrClear
  /-- CTR.CLEAR_ALL (R43). -/
  | ctrClearAll
  /-- CTR.UNBIND (R43). -/
  | ctrUnbind
  /-- CTR.CMD_F_ADDR (R43). -/
  | ctrCmdFAddr
  /-- CMD.OFF (R44). -/
  | cmdOff
  /-- CMD.ON (R44). -/
  | cmdOn
  /-- CMD.BATTERY_LOW (R44). -/
  | cmdBatteryLow
  /-- CMD.SENSOR_TEMP_HUM (R44). -/
  | cmdSensorTempHum
  /-- CMD.TEMPORARY_ON (R44). -/
  | cmdTemporaryOn
  /-- CMD.SEND_STATE (R44). -/
  | cmdSendState
deriving DecidableEq, Repr

end Sys2Proof
end

