-- ==== Sys2Proof/WellFormed.lean ====
section
/-! DEFINITION. Which instructions are well formed: the range limits of 30_encoding.md R50 and R54 and the
`constraints` of the opcode table's rows. -/

namespace Sys2Proof

/-- The table's constraints on an instruction's operands. The must-be-zero fields of R50 are no operands here: the
encoder writes them 0 and the decoder refuses a word in which they are not. -/
def Instr.WellFormed : Instr → Bool
  | .nop => true
  | .wrf idx _ => Machine.fieldIndexOk idx
  | .rdf idx => Machine.fieldIndexOk idx
  | .push _ => true
  | .rdb idx => Machine.bufferOffsetOk idx
  | .bclr => true
  | .enc => true
  | .dec => true
  | .rdsr idx => Machine.sysRegOk idx
  | .wrsr idx _ => Machine.sysRegWritable idx
  | .frameCmd f => (Machine.firstBad 1 (Machine.fieldList f)).isNone
  | .frameRsp b => b.length == 17
  | .modeTx => true
  | .modeRx => true
  | .modeTxF => true
  | .modeRxF => true
  | .modeServiceF => true
  | .modeOtaF => true
  | .ctrCmd => true
  | .ctrBroadcastCmd => true
  | .ctrRead => true
  | .ctrBindStart => true
  | .ctrBindStop => true
  | .ctrClear => true
  | .ctrClearAll => true
  | .ctrUnbind => true
  | .ctrCmdFAddr => true
  | .cmdOff => true
  | .cmdOn => true
  | .cmdBatteryLow => true
  | .cmdSensorTempHum => true
  | .cmdTemporaryOn => true
  | .cmdSendState => true

end Sys2Proof
end

