-- ==== Sys2Proof/Decode.lean ====
section
/-! DEFINITION. What the host can ask for, the decoder and the encoder (30_encoding.md R38, R42 to R44, R47 to R50,
R53, R54). The decoder is total: it answers an instruction or a rejection by name. -/

namespace Sys2Proof

/-! ### Enumeration names -/

/-- The members of `mode` (R42). -/
inductive Mode where
  | TX | RX | TX_F | RX_F | SERVICE_F | OTA_F
deriving DecidableEq, Repr

/-- The members of `ctr` (R43). -/
inductive Ctr where
  | CMD | BROADCAST_CMD | READ | BIND_START | BIND_STOP | CLEAR | CLEAR_ALL | UNBIND | CMD_F_ADDR
deriving DecidableEq, Repr

/-- The members of `cmd` that have a name (R44). -/
inductive CmdName where
  | OFF | ON | BATTERY_LOW | SENSOR_TEMP_HUM | TEMPORARY_ON | SEND_STATE
deriving DecidableEq, Repr

/-- The three enumerations carried in a frame (R42, R43, R44). -/
inductive Enumeration where
  | mode | ctr | cmd
deriving DecidableEq, Repr

/-- A named member of one of the three enumerations. -/
inductive Member where
  | mode (m : Mode)
  | ctr (c : Ctr)
  | cmd (c : CmdName)
deriving DecidableEq, Repr

/-- The frame offset of an enumeration's byte (R38, R48). -/
def Enumeration.offset : Enumeration → Nat
  | .mode => 1
  | .ctr => 2
  | .cmd => 5

/-- The enumeration a member belongs to. -/
def Member.kind : Member → Enumeration
  | .mode _ => .mode
  | .ctr _ => .ctr
  | .cmd _ => .cmd

/-- The value of a member of `mode` (R42). -/
def Mode.value : Mode → Byte
  | .TX => 0
  | .RX => 1
  | .TX_F => 2
  | .RX_F => 3
  | .SERVICE_F => 4
  | .OTA_F => 5

/-- The value of a member of `ctr` (R43). -/
def Ctr.value : Ctr → Byte
  | .CMD => 0
  | .BROADCAST_CMD => 1
  | .READ => 2
  | .BIND_START => 3
  | .BIND_STOP => 4
  | .CLEAR => 5
  | .CLEAR_ALL => 6
  | .UNBIND => 7
  | .CMD_F_ADDR => 8

/-- The value of a named member of `cmd` (R44). -/
def CmdName.value : CmdName → Byte
  | .OFF => 0
  | .ON => 2
  | .BATTERY_LOW => 20
  | .SENSOR_TEMP_HUM => 21
  | .TEMPORARY_ON => 25
  | .SEND_STATE => 130

/-- The value of a member (R42, R43, R44). -/
def Member.value : Member → Byte
  | .mode m => m.value
  | .ctr c => c.value
  | .cmd c => c.value

/-! ### Requests -/

/-- What the host can ask the codec for. A command word is the block's own interface (R49). The two calls are the pure
functions the operations are defined by (R58, R60), which the source calls `encode` and `decode`; the name look-up is
R48's decoder of enumeration names. DESIGN CHOICE: log 5, log 6. -/
inductive Request where
  | command (w : CmdWord)
  | encodeCall (fields : NamedFields)
  | decodeCall (bytes : List Byte)
  | nameCall (kind : Enumeration) (v : Byte)
deriving DecidableEq, Repr

/-- An event at the block's interface: a request, or reset, which is no command word (R9, R89). -/
inductive HostEvent where
  | issue (r : Request)
  | reset
deriving DecidableEq, Repr

/-- Why the decoder answers no instruction. The first five are the cases (a) to (e) of R54, all of them
IllegalOperation; the last is a byte of an enumeration that no row names (R48). -/
inductive Reject where
  | undefinedOp (op : Byte)
  | mustBeZero
  | indexRange (idx : Byte)
  | readOnly (idx : Byte)
  | pushTooWide (imm : Half)
  | noName (kind : Enumeration) (v : Byte)
deriving DecidableEq, Repr

/-! ### The command word -/

/-- `op`, bits 31:24 (R49). -/
def opField (w : CmdWord) : Byte := w.extractLsb' 24 8

/-- `idx`, bits 23:16 (R49). -/
def idxField (w : CmdWord) : Byte := w.extractLsb' 16 8

/-- `imm`, bits 15:0 (R49). -/
def immField (w : CmdWord) : Half := w.extractLsb' 0 16

/-- An operation that uses neither `idx` nor `imm`: both must be 0 (R50). -/
def decodePlain (i : Instr) (idx : Byte) (imm : Half) : Except Reject Instr :=
  if idx = 0 ∧ imm = 0 then .ok i else .error .mustBeZero

/-- An operation that reads at `idx`: `idx` in range, `imm` must be 0 (R50). -/
def decodeIndexed (i : Instr) (inRange : Bool) (idx : Byte) (imm : Half) : Except Reject Instr :=
  if !inRange then .error (.indexRange idx)
  else if imm = 0 then .ok i
  else .error .mustBeZero

/-- PUSH: `idx` must be 0 and `imm[15:8]` must be 0 (R50, R53). -/
def decodePush (idx : Byte) (imm : Half) : Except Reject Instr :=
  if idx ≠ 0 then .error .mustBeZero
  else if imm.extractLsb' 8 8 = 0 then .ok (.push (Machine.lowByte imm))
  else .error (.pushTooWide imm)

/-- WRF: `idx` 0 to 14, any `imm` (R50). -/
def decodeWrf (idx : Byte) (imm : Half) : Except Reject Instr :=
  if Machine.fieldIndexOk idx then .ok (.wrf idx imm) else .error (.indexRange idx)

/-- WRSR: only register 0 is writable, any `imm` (R50, R53, R54). -/
def decodeWrsr (idx : Byte) (imm : Half) : Except Reject Instr :=
  if Machine.sysRegWritable idx then .ok (.wrsr idx imm)
  else if Machine.sysRegOk idx then .error (.readOnly idx)
  else .error (.indexRange idx)

/-- The command decoder, total on all 2^32 words (R50, R54). -/
def decodeWord (w : CmdWord) : Except Reject Instr :=
  let idx := idxField w
  let imm := immField w
  match (opField w).toNat with
  | 0x00 => decodePlain .nop idx imm
  | 0x01 => decodeWrf idx imm
  | 0x02 => decodeIndexed (.rdf idx) (Machine.fieldIndexOk idx) idx imm
  | 0x03 => decodePush idx imm
  | 0x04 => decodeIndexed (.rdb idx) (Machine.bufferOffsetOk idx) idx imm
  | 0x05 => decodePlain .bclr idx imm
  | 0x06 => decodePlain .enc idx imm
  | 0x07 => decodePlain .dec idx imm
  | 0x08 => decodeIndexed (.rdsr idx) (Machine.sysRegOk idx) idx imm
  | 0x09 => decodeWrsr idx imm
  | _ => .error (.undefinedOp (opField w))

/-! ### Enumeration names -/

/-- The 21 enumeration rows of the opcode table (R48). -/
def enumRows : List (Member × Instr) :=
  [(.mode .TX, .modeTx), (.mode .RX, .modeRx), (.mode .TX_F, .modeTxF), (.mode .RX_F, .modeRxF),
    (.mode .SERVICE_F, .modeServiceF), (.mode .OTA_F, .modeOtaF)]
  ++ [(.ctr .CMD, .ctrCmd), (.ctr .BROADCAST_CMD, .ctrBroadcastCmd), (.ctr .READ, .ctrRead),
    (.ctr .BIND_START, .ctrBindStart), (.ctr .BIND_STOP, .ctrBindStop), (.ctr .CLEAR, .ctrClear),
    (.ctr .CLEAR_ALL, .ctrClearAll), (.ctr .UNBIND, .ctrUnbind), (.ctr .CMD_F_ADDR, .ctrCmdFAddr)]
  ++ [(.cmd .OFF, .cmdOff), (.cmd .ON, .cmdOn), (.cmd .BATTERY_LOW, .cmdBatteryLow),
    (.cmd .SENSOR_TEMP_HUM, .cmdSensorTempHum), (.cmd .TEMPORARY_ON, .cmdTemporaryOn),
    (.cmd .SEND_STATE, .cmdSendState)]

/-- The row of an enumeration that has value `v`, if there is one (R48). -/
def findName (kind : Enumeration) (v : Byte) : Option Instr :=
  (enumRows.find? fun r => r.1.kind = kind && r.1.value = v).map Prod.snd

/-- The decoder of enumeration names (R48). -/
def decodeName (kind : Enumeration) (v : Byte) : Except Reject Instr :=
  match findName kind v with
  | some i => .ok i
  | none => .error (.noName kind v)

/-! ### The decoder -/

/-- The decoder: an instruction, or a rejection by name. A call of a pure function is taken whatever its argument,
since Encode and Decode judge their argument themselves (R58, R60). -/
def decode : Request → Except Reject Instr
  | .command w => decodeWord w
  | .encodeCall f => .ok (.frameCmd f)
  | .decodeCall b => .ok (.frameRsp b)
  | .nameCall kind v => decodeName kind v

/-! ### The frame as an image (R38, R47) -/

/-- The field at frame offset `k` of a 17-byte image, as a value (R41). -/
def imageField (b : List Byte) (k : Nat) : Half := Machine.zext16 (b.getD k 0)

/-- The named fields of an image (R38). -/
def imageFields (b : List Byte) : NamedFields :=
  { mode := imageField b 1, ctr := imageField b 2, res := imageField b 3, ch := imageField b 4,
    cmd := imageField b 5, fmt := imageField b 6, d0 := imageField b 7, d1 := imageField b 8,
    d2 := imageField b 9, d3 := imageField b 10, id0 := imageField b 11, id1 := imageField b 12,
    id2 := imageField b 13, id3 := imageField b 14 }

/-- A 17-byte image read as row FRAME.CMD: the two sentinels of the row's match and mask, its checksum constraint, its
membership constraints (R38, R39, R47). -/
def readCommandImage (b : List Byte) : Option NamedFields :=
  if b.length = 17
      ∧ b.getD 0 0 = Machine.stTx
      ∧ b.getD 16 0 = Machine.spTx
      ∧ b.getD 15 0 = Machine.checksum (b.take 15)
      ∧ Machine.firstBad 1 (Machine.fieldList (imageFields b)) = none then
    some (imageFields b)
  else none

/-- The image of a well-formed command frame (R38): what Encode gives for its fields. -/
def writeCommandImage (f : NamedFields) : List Byte := Machine.frameOf (Machine.fieldList f)

/-! ### The encoder -/

/-- A command word of its three fields: `op` 31:24, `idx` 23:16, `imm` 15:0 (R49). -/
def commandWord (op idx : Byte) (imm : Half) : CmdWord :=
  BitVec.ofNat 32 (op.toNat * 2 ^ 24 + idx.toNat * 2 ^ 16 + imm.toNat)

/-- The request that spells an instruction, from R50 for the operations and R42 to R44 for the enumeration rows. -/
def encode : Instr → Request
  | .nop => .command (commandWord 0x00 0 0)
  | .wrf idx imm => .command (commandWord 0x01 idx imm)
  | .rdf idx => .command (commandWord 0x02 idx 0)
  | .push imm => .command (commandWord 0x03 0 (Machine.zext16 imm))
  | .rdb idx => .command (commandWord 0x04 idx 0)
  | .bclr => .command (commandWord 0x05 0 0)
  | .enc => .command (commandWord 0x06 0 0)
  | .dec => .command (commandWord 0x07 0 0)
  | .rdsr idx => .command (commandWord 0x08 idx 0)
  | .wrsr idx imm => .command (commandWord 0x09 idx imm)
  | .frameCmd f => .encodeCall f
  | .frameRsp b => .decodeCall b
  | .modeTx => .nameCall .mode 0
  | .modeRx => .nameCall .mode 1
  | .modeTxF => .nameCall .mode 2
  | .modeRxF => .nameCall .mode 3
  | .modeServiceF => .nameCall .mode 4
  | .modeOtaF => .nameCall .mode 5
  | .ctrCmd => .nameCall .ctr 0
  | .ctrBroadcastCmd => .nameCall .ctr 1
  | .ctrRead => .nameCall .ctr 2
  | .ctrBindStart => .nameCall .ctr 3
  | .ctrBindStop => .nameCall .ctr 4
  | .ctrClear => .nameCall .ctr 5
  | .ctrClearAll => .nameCall .ctr 6
  | .ctrUnbind => .nameCall .ctr 7
  | .ctrCmdFAddr => .nameCall .ctr 8
  | .cmdOff => .nameCall .cmd 0
  | .cmdOn => .nameCall .cmd 2
  | .cmdBatteryLow => .nameCall .cmd 20
  | .cmdSensorTempHum => .nameCall .cmd 21
  | .cmdTemporaryOn => .nameCall .cmd 25
  | .cmdSendState => .nameCall .cmd 130

/-! ### The opcode table's numbering of bits -/

/-- The `n` bytes of a number, the most significant first: a frame row's `match` is a hexadecimal number in offset
order (R47), so offset 0 is its most significant byte (log 8). -/
def bytesOfNumber : Nat → Nat → List Byte
  | 0, _ => []
  | n + 1, w => BitVec.ofNat 8 (w / 256 ^ n) :: bytesOfNumber n w

/-- An 8-bit row gives a value and no frame offset, so one byte can be a member of several enumerations: the first of
`mode`, `ctr`, `cmd` that names it is taken (DESIGN CHOICE, log 7). -/
def tableName (v : Byte) : Request :=
  if (findName .mode v).isSome then .nameCall .mode v
  else if (findName .ctr v).isSome then .nameCall .ctr v
  else .nameCall .cmd v

/-- A 17-byte row: FRAME.CMD where the row's match, mask and constraints hold, else FRAME.RSP, whose mask is 0
(R47, log 8). -/
def tableFrame (b : List Byte) : Request :=
  match readCommandImage b with
  | some f => .encodeCall f
  | none => .decodeCall b

/-- The request spelt by a row of `nbits` bits with value `w`: 8 bits an enumeration row, up to 32 an operation, more
than that a frame row. -/
def tableRequest (nbits w : Nat) : Request :=
  if nbits ≤ 8 then tableName (BitVec.ofNat 8 w)
  else if nbits ≤ 32 then .command (BitVec.ofNat 32 w)
  else tableFrame (bytesOfNumber 17 w)

/-- The instruction the decoder reads from a row's bits. -/
def decodeTableWord (nbits w : Nat) : Option Instr :=
  match decode (tableRequest nbits w) with
  | .ok i => some i
  | .error _ => none

end Sys2Proof
end

