-- ==== Sys2Proof/Machine/State.lean ====
section
/-! DEFINITION. The state of the machine, its errors, the answers the host gets, the reasons a step could stop, and
reset (10_state.md R10 to R24; 70_reset_and_hazards.md R89). -/

namespace Sys2Proof.Machine

/-- The frame buffer `B` (R22) as (offset, byte) pairs in canonical form: offsets strictly rising, none above 16, no
entry equal to what an unlisted offset reads as (`Memory.wf`). -/
abbrev Memory := List Host.Cell

/-- What an offset that is not listed reads as: 0, the reset value of every `B[k]` (R23). -/
def Memory.resetByte : Byte := 0

/-- The canonical form from offset `lo` on. -/
def Memory.wfFrom : Nat → Memory → Bool
  | _, [] => true
  | lo, (k, v) :: rest =>
    decide (lo ≤ k) && decide (k < 17) && v != Memory.resetByte && Memory.wfFrom (k + 1) rest

/-- The canonical form: equal buffers are equal lists. -/
def Memory.wf (m : Memory) : Bool := Memory.wfFrom 0 m

/-- The errors of the codec (R75); MalformedFrame by its two causes (R77, R78). -/
inductive CodecError where
  /-- EncodeRangeError, with the frame offset of the first bad field (R76). -/
  | encodeRange (k : Nat)
  /-- MalformedFrame, wrong length (R77). -/
  | malformedLength
  /-- MalformedFrame, bad checksum, with the recomputed checksum (R78). -/
  | malformedChecksum (computed : Byte)
  /-- IllegalOperation (R79). -/
  | illegalOperation
deriving DecidableEq, Repr

/-- What the host receives. Only `response` is the block's own interface (R51). -/
inductive Answer where
  /-- The response word of a command word (R51). -/
  | response (w : CmdWord)
  /-- `Encode` returned these 17 bytes (R58). -/
  | encoded (b : List Byte)
  /-- `Decode` returned the content bytes, `crc_ok` and the recomputed checksum (R60). -/
  | decoded (d : Decoded)
  /-- A pure function raised an error (R58, R60). -/
  | raised (e : CodecError)
  /-- The byte names this member, whose byte stands at this frame offset (R48). -/
  | member (m : Member) (offset : Nat) (v : Byte)
  /-- No row names the byte; `valid` says whether it is a member all the same (only a `cmd` byte can be; R48). -/
  | noName (kind : Enumeration) (v : Byte) (valid : Bool)
deriving DecidableEq, Repr

/-- The whole state. The first six fields are the block's (R24); the last two hold the host (R9, log 1). -/
structure State where
  /-- `F[0]` to `F[14]` (R10). -/
  f : Vector Half 15
  /-- `B[0]` to `B[16]` (R22). -/
  buf : Memory
  /-- `BLEN` bits 7:0; bits 15:8 read as 0 (R17). -/
  blen : Byte
  /-- `CSUM` bits 7:0; bits 15:8 read as 0 (R18). -/
  csum : Byte
  /-- `CTRL` (R16). -/
  ctrl : Half
  /-- `STATUS` (R19). -/
  status : Half
  /-- The events the host will still present, the next one first (log 1). -/
  inbox : List HostEvent
  /-- The answers the host has received, the oldest first (log 1). -/
  outbox : List Answer
deriving DecidableEq, Repr

/-- The reasons the machine stops with a fault: NONE. No rule of the spec stops the block: an error is an ordinary,
recoverable outcome, reported in a response (R85). Nobody raises one. Safe. -/
inductive Fault where
deriving DecidableEq, Repr

/-- The reasons a step has no meaning. -/
inductive Refusal where
  /-- Raised by an arm of exec whose instruction has no meaning in this model yet; no arm does. Safe. -/
  | notModelled (mnemonic : String)
deriving DecidableEq, Repr

/-- The machine right after reset (R23, R89): every register 0, but `CTRL.STRICT` = `STRICT_RESET` = 1 (R5, R16). The host
has nothing to present and has received nothing (log 1). -/
def State.reset : State where
  f := Vector.replicate 15 0
  buf := []
  blen := 0
  csum := 0
  ctrl := 1
  status := 0
  inbox := []
  outbox := []

end Sys2Proof.Machine
end

