-- ==== Sys2Proof/Machine/Flags.lean ====
section
/-! DEFINITION. The fields of `STATUS` (10_state.md R19) and of `CTRL` (R16). -/

namespace Sys2Proof.Machine

/-- `STATUS.LAST` of the last ENC (R19). -/
def lastEnc : BitVec 2 := 1

/-- `STATUS.LAST` of the last DEC (R19). -/
def lastDec : BitVec 2 := 2

/-- `STATUS.ERR`: it succeeded (R19). -/
def errNone : BitVec 2 := 0

/-- `STATUS.ERR`: it raised EncodeRangeError (R19). -/
def errEncodeRange : BitVec 2 := 1

/-- `STATUS.ERR`: it raised MalformedFrame (R19). -/
def errMalformed : BitVec 2 := 2

/-- `STATUS <- {LAST=a, ERR=b, LEN_OK=c, CRC_OK=d, EIDX=e}`: every field at once, bits 15 to 10 become 0 (R7, R19). -/
def statusWord (last err : BitVec 2) (lenOk crcOk : Bool) (eidx : BitVec 4) : Half :=
  BitVec.ofNat 16
    (last.toNat + err.toNat * 2 ^ 2 + lenOk.toNat * 2 ^ 4 + crcOk.toNat * 2 ^ 5 + eidx.toNat * 2 ^ 6)

/-- `STATUS.LAST`, bits 1:0 (R19). -/
def statusLast (w : Half) : BitVec 2 := w.extractLsb' 0 2

/-- `STATUS.ERR`, bits 3:2 (R19). -/
def statusErr (w : Half) : BitVec 2 := w.extractLsb' 2 2

/-- `STATUS.LEN_OK`, bit 4 (R19). -/
def statusLenOk (w : Half) : Bool := w.getLsbD 4

/-- `STATUS.CRC_OK`, bit 5 (R19). -/
def statusCrcOk (w : Half) : Bool := w.getLsbD 5

/-- `STATUS.EIDX`, bits 9:6 (R19). -/
def statusEidx (w : Half) : BitVec 4 := w.extractLsb' 6 4

/-- The reserved bits 15:10 of `STATUS` (R19). -/
def statusReserved (w : Half) : BitVec 6 := w.extractLsb' 10 6

/-- `CTRL.STRICT`, bit 0 (R16). -/
def ctrlStrict (w : Half) : Bool := w.getLsbD 0

/-- The reserved bits 15:1 of `CTRL` (R16). -/
def ctrlReserved (w : Half) : BitVec 15 := w.extractLsb' 1 15

/-- What a write of `v` leaves in `CTRL`: bit 0 only; the reserved bits read as 0 (R16, R53, R74). -/
def ctrlOfWrite (v : Half) : Half := (v.extractLsb' 0 1).setWidth 16

end Sys2Proof.Machine
end

