-- ==== Sys2Proof/Machine/Ops.lean ====
section
/-! DEFINITION. The named operations over the frame buffer, the registers and the host's side: reading and writing
(20_memory.md R25 to R29), answering, raising an error (60_exceptions.md R83), reset (70_reset_and_hazards.md R89) and
taking the host's next event (00_scope.md R9). -/

namespace Sys2Proof.Machine

/-! ### The frame buffer -/

/-- The byte at an offset. -/
def Memory.read : Memory → Nat → Byte
  | [], _ => Memory.resetByte
  | (k, v) :: rest, a => if k = a then v else Memory.read rest a

/-- The buffer with `v` at offset `a`, in canonical form. -/
def Memory.write : Memory → Nat → Byte → Memory
  | [], a, v => if v = Memory.resetByte then [] else [(a, v)]
  | (k, x) :: rest, a, v =>
    if a < k then (if v = Memory.resetByte then (k, x) :: rest else (a, v) :: (k, x) :: rest)
    else if a = k then (if v = Memory.resetByte then rest else (a, v) :: rest)
    else (k, x) :: Memory.write rest a v

/-- The bytes of a list written at consecutive offsets from `a` on. -/
def Memory.writeFrom : Memory → Nat → List Byte → Memory
  | m, _, [] => m
  | m, a, b :: bs => Memory.writeFrom (Memory.write m a b) (a + 1) bs

/-- The `n` bytes at consecutive offsets from `a` on. -/
def Memory.readFrom (m : Memory) : Nat → Nat → List Byte
  | _, 0 => []
  | a, n + 1 => Memory.read m a :: Memory.readFrom m (a + 1) n

/-- `B[k]` (R7). -/
def State.byteAt (s : State) (k : Nat) : Byte := s.buf.read k

/-- `B[0]` to `B[16]` in offset order. -/
def State.frame (s : State) : List Byte := s.buf.readFrom 0 17

/-- `B[k] <- v` (R7). -/
def State.setByte (s : State) (k : Nat) (v : Byte) : State := { s with buf := s.buf.write k v }

/-- The whole buffer from offset 0 on (R31, R63). -/
def State.setFrame (s : State) (b : List Byte) : State := { s with buf := s.buf.writeFrom 0 b }

/-! ### The registers -/

/-- `F[i]` (R7); the callers have checked that `i` is at most 14. -/
def State.field (s : State) (i : Nat) : Half := s.f[i]?.getD 0

/-- `F[i] <- v` (R7). -/
def State.setField (s : State) (i : Nat) (v : Half) : State := { s with f := s.f.setIfInBounds i v }

/-- `F[1]` to `F[14]`, the operands of ENC; `F[0]` is none of them (R12). -/
def State.operands (s : State) : List Half := s.f.toList.drop 1

/-- `F[k] <- zext_16(g[k])` for `k` = 0 to 14 (R29, R65). -/
def State.setFields (s : State) (g : List Byte) : State :=
  { s with f := Vector.ofFn fun k => zext16 (g.getD k.val 0) }

/-- `BLEN <- v` (R17). -/
def State.setBlen (s : State) (v : Byte) : State := { s with blen := v }

/-- `CSUM <- v` (R18). -/
def State.setCsum (s : State) (v : Byte) : State := { s with csum := v }

/-- `STATUS <- w` (R20). -/
def State.setStatus (s : State) (w : Half) : State := { s with status := w }

/-- `CTRL` written with `v` (R16, R74). -/
def State.writeCtrl (s : State) (v : Half) : State := { s with ctrl := ctrlOfWrite v }

/-- `CTRL.STRICT` (R16). -/
def State.strict (s : State) : Bool := ctrlStrict s.ctrl

/-- The system register of number `a` as RDSR sees it (R15, R73); the callers have checked that `a` is at most 3. -/
def State.sysReg (s : State) (a : Nat) : Half :=
  match a with
  | 0 => s.ctrl
  | 1 => s.status
  | 2 => zext16 s.csum
  | _ => zext16 s.blen

/-! ### Answers and errors -/

/-- The code of an error (R51, R75). -/
def CodecError.code : CodecError → Byte
  | .encodeRange _ => 1
  | .malformedLength => 2
  | .malformedChecksum _ => 2
  | .illegalOperation => 3

/-- A response word: `code` 31:24, zero 23:16, `data` 15:0 (R51). -/
def responseWord (code : Byte) (data : Half) : CmdWord :=
  BitVec.ofNat 32 (code.toNat * 2 ^ 24 + data.toNat)

/-- The host receives an answer. -/
def State.deliver (s : State) (a : Answer) : State := { s with outbox := s.outbox ++ [a] }

/-- `return v`: code 0, data `v` (R51). -/
def State.respond (s : State) (v : Half) : State := s.deliver (.response (responseWord 0 v))

/-- `raise E` by an operation, the one place where an error of the block is taken (R83): the writes listed before it are
in `s` already, and the response carries the code of `E` and data 0. Nothing is saved and control goes nowhere (R84).
There is no return from it: the next request runs normally (R85). -/
def State.raise (s : State) (e : CodecError) : State := s.deliver (.response (responseWord e.code 0))

/-- An error of the block's own command decoder or of an operand out of its space: IllegalOperation, no state of the
block changes (R27, R54, R79). -/
def State.raiseIllegal (s : State) : State := s.raise .illegalOperation

/-! ### The host's events -/

/-- Reset (R89): every piece of the block's state takes its reset value and no response is given. The host's own side is
not the block's state. -/
def State.resetBlock (s : State) : State := { State.reset with inbox := s.inbox, outbox := s.outbox }

/-- What the block finds at its interface. -/
inductive Fetched where
  /-- The host presents nothing. -/
  | idle
  /-- The host asserts reset (R89). -/
  | reset
  /-- A request that spells an instruction. -/
  | run (i : Instr)
  /-- A request that spells none, with the decoder's reason. -/
  | rejected (why : Reject)
deriving DecidableEq, Repr

/-- The host's next event, decoded: legality is judged before any state of the block is read (R79, R81). -/
def fetch (s : State) : Fetched :=
  match s.inbox with
  | [] => .idle
  | .reset :: _ => .reset
  | .issue r :: _ =>
    match decode r with
    | .ok i => .run i
    | .error why => .rejected why

/-- The host's next event is taken off its list. -/
def State.takeEvent (s : State) : State := { s with inbox := s.inbox.tail }

/-- Is a byte a member of its enumeration, named or not (R42, R43, R44, R48)? -/
def Enumeration.valid (kind : Enumeration) (v : Byte) : Bool :=
  match kind with
  | .mode => modeValid v.toNat
  | .ctr => ctrValid v.toNat
  | .cmd => cmdValid v.toNat

/-- The answer to a request that spells no instruction: for a command word IllegalOperation (R54, R79), for an
enumeration byte that it has no name (R48). -/
def State.reject (s : State) : Reject → State
  | .undefinedOp _ => s.raiseIllegal
  | .mustBeZero => s.raiseIllegal
  | .indexRange _ => s.raiseIllegal
  | .readOnly _ => s.raiseIllegal
  | .pushTooWide _ => s.raiseIllegal
  | .noName kind v => s.deliver (.noName kind v (Enumeration.valid kind v))

end Sys2Proof.Machine
end

