-- ==== Sys2Proof/Machine/Access.lean ====
section
/-! DEFINITION. The eight access operations (41_access_ops.md R67 to R74). An index outside its space raises
IllegalOperation and nothing is read or written (20_memory.md R27; log 12). -/

namespace Sys2Proof.Machine

/-- NOP (R67). -/
def execNop (s : State) : Host.Outcome State Fault Refusal := .next (s.respond 0)

/-- WRF (R68): no range check of the value. -/
def execWrf (idx : Byte) (imm : Half) (s : State) : Host.Outcome State Fault Refusal :=
  if fieldIndexOk idx then .next ((s.setField idx.toNat imm).respond 0) else .next s.raiseIllegal

/-- RDF (R69). -/
def execRdf (idx : Byte) (s : State) : Host.Outcome State Fault Refusal :=
  if fieldIndexOk idx then .next (s.respond (s.field idx.toNat)) else .next s.raiseIllegal

/-- The byte of PUSH, stored at the old `BLEN` if that is an offset of the buffer (R70). -/
def pushStore (b : Byte) (s : State) : State :=
  if s.blen.toNat ≤ 16 then s.setByte s.blen.toNat b else s

/-- The count of PUSH, saturating at `BLEN_MAX` (R17, R70). -/
def pushCount (s : State) : State :=
  if s.blen.toNat < 255 then s.setBlen (s.blen + 1) else s

/-- PUSH (R70). -/
def execPush (imm : Byte) (s : State) : Host.Outcome State Fault Refusal :=
  .next ((pushCount (pushStore imm s)).respond 0)

/-- RDB (R71). -/
def execRdb (idx : Byte) (s : State) : Host.Outcome State Fault Refusal :=
  if bufferOffsetOk idx then .next (s.respond (zext16 (s.byteAt idx.toNat))) else .next s.raiseIllegal

/-- BCLR (R72): the count only, the bytes stay. -/
def execBclr (s : State) : Host.Outcome State Fault Refusal := .next ((s.setBlen 0).respond 0)

/-- RDSR (R73). -/
def execRdsr (idx : Byte) (s : State) : Host.Outcome State Fault Refusal :=
  if sysRegOk idx then .next (s.respond (s.sysReg idx.toNat)) else .next s.raiseIllegal

/-- WRSR (R74). -/
def execWrsr (idx : Byte) (imm : Half) (s : State) : Host.Outcome State Fault Refusal :=
  if sysRegWritable idx then .next ((s.writeCtrl imm).respond 0) else .next s.raiseIllegal

end Sys2Proof.Machine
end

