-- ==== Sys2Proof/Machine/Codec.lean ====
section
/-! DEFINITION. The two codec operations ENC and DEC (40_codec_ops.md R63 to R66). -/

namespace Sys2Proof.Machine

/-- ENC fails at offset `k` (R63, R76): only `STATUS` is written. -/
def encFail (k : Nat) (s : State) : State :=
  (s.setStatus (statusWord lastEnc errEncodeRange false false (BitVec.ofNat 4 k))).raise (.encodeRange k)

/-- ENC succeeds with frame `b` (R63): buffer, count, checksum, status. -/
def encDone (b : List Byte) (s : State) : State :=
  ((((s.setFrame b).setBlen 17).setCsum (b.getD 15 0)).setStatus
    (statusWord lastEnc errNone false false 0)).respond 0

/-- ENC (R63). -/
def execEnc (s : State) : Host.Outcome State Fault Refusal :=
  match encodeFrame s.operands with
  | .error k => .next (encFail k s)
  | .ok b => .next (encDone b s)

/-- DEC fails by length (R65, R77): only `STATUS` is written. -/
def decFailLength (s : State) : State :=
  (s.setStatus (statusWord lastDec errMalformed false false 0)).raise .malformedLength

/-- DEC fails by checksum (R65, R78): `CSUM` and `STATUS` are written. -/
def decFailChecksum (computed : Byte) (s : State) : State :=
  ((s.setCsum computed).setStatus (statusWord lastDec errMalformed true false 0)).raise
    (.malformedChecksum computed)

/-- DEC succeeds (R65): fields, checksum, status. -/
def decDone (d : Decoded) (s : State) : State :=
  (((s.setFields d.content).setCsum d.sum).setStatus (statusWord lastDec errNone true d.crcOk 0)).respond 0

/-- DEC (R65). -/
def execDec (s : State) : Host.Outcome State Fault Refusal :=
  match decodeUnit s.frame s.blen.toNat s.strict with
  | .error .length => .next (decFailLength s)
  | .error (.checksum computed) => .next (decFailChecksum computed s)
  | .ok d => .next (decDone d s)

end Sys2Proof.Machine
end

