-- ==== Sys2Proof/Machine/Enums.lean ====
section
/-! DEFINITION. The twenty-one enumeration rows of the opcode table (30_encoding.md R42, R43, R44, R48): each names one
value of one frame byte. A look-up changes no register of the block (log 6). -/

namespace Sys2Proof.Machine

/-- The host's look-up of a byte found the member `m` (R48). -/
def nameMember (m : Member) (s : State) : Host.Outcome State Fault Refusal :=
  .next (s.deliver (.member m m.kind.offset m.value))

/-- MODE.TX (R42). -/
def execModeTx (s : State) : Host.Outcome State Fault Refusal := nameMember (.mode .TX) s

/-- MODE.RX (R42). -/
def execModeRx (s : State) : Host.Outcome State Fault Refusal := nameMember (.mode .RX) s

/-- MODE.TX_F (R42). -/
def execModeTxF (s : State) : Host.Outcome State Fault Refusal := nameMember (.mode .TX_F) s

/-- MODE.RX_F (R42). -/
def execModeRxF (s : State) : Host.Outcome State Fault Refusal := nameMember (.mode .RX_F) s

/-- MODE.SERVICE_F (R42). -/
def execModeServiceF (s : State) : Host.Outcome State Fault Refusal := nameMember (.mode .SERVICE_F) s

/-- MODE.OTA_F (R42). -/
def execModeOtaF (s : State) : Host.Outcome State Fault Refusal := nameMember (.mode .OTA_F) s

/-- CTR.CMD (R43). -/
def execCtrCmd (s : State) : Host.Outcome State Fault Refusal := nameMember (.ctr .CMD) s

/-- CTR.BROADCAST_CMD (R43). -/
def execCtrBroadcastCmd (s : State) : Host.Outcome State Fault Refusal := nameMember (.ctr .BROADCAST_CMD) s

/-- CTR.READ (R43). -/
def execCtrRead (s : State) : Host.Outcome State Fault Refusal := nameMember (.ctr .READ) s

/-- CTR.BIND_START (R43). -/
def execCtrBindStart (s : State) : Host.Outcome State Fault Refusal := nameMember (.ctr .BIND_START) s

/-- CTR.BIND_STOP (R43). -/
def execCtrBindStop (s : State) : Host.Outcome State Fault Refusal := nameMember (.ctr .BIND_STOP) s

/-- CTR.CLEAR (R43). -/
def execCtrClear (s : State) : Host.Outcome State Fault Refusal := nameMember (.ctr .CLEAR) s

/-- CTR.CLEAR_ALL (R43). -/
def execCtrClearAll (s : State) : Host.Outcome State Fault Refusal := nameMember (.ctr .CLEAR_ALL) s

/-- CTR.UNBIND (R43). -/
def execCtrUnbind (s : State) : Host.Outcome State Fault Refusal := nameMember (.ctr .UNBIND) s

/-- CTR.CMD_F_ADDR (R43). -/
def execCtrCmdFAddr (s : State) : Host.Outcome State Fault Refusal := nameMember (.ctr .CMD_F_ADDR) s

/-- CMD.OFF (R44). -/
def execCmdOff (s : State) : Host.Outcome State Fault Refusal := nameMember (.cmd .OFF) s

/-- CMD.ON (R44). -/
def execCmdOn (s : State) : Host.Outcome State Fault Refusal := nameMember (.cmd .ON) s

/-- CMD.BATTERY_LOW (R44). -/
def execCmdBatteryLow (s : State) : Host.Outcome State Fault Refusal := nameMember (.cmd .BATTERY_LOW) s

/-- CMD.SENSOR_TEMP_HUM (R44). -/
def execCmdSensorTempHum (s : State) : Host.Outcome State Fault Refusal := nameMember (.cmd .SENSOR_TEMP_HUM) s

/-- CMD.TEMPORARY_ON (R44). -/
def execCmdTemporaryOn (s : State) : Host.Outcome State Fault Refusal := nameMember (.cmd .TEMPORARY_ON) s

/-- CMD.SEND_STATE (R44). -/
def execCmdSendState (s : State) : Host.Outcome State Fault Refusal := nameMember (.cmd .SEND_STATE) s

end Sys2Proof.Machine
end

