-- ==== Sys2Proof/Machine/Frames.lean ====
section
/-! DEFINITION. The two frame rows of the opcode table (30_encoding.md R47): the pure functions Encode (40_codec_ops.md
R58) and Decode (R60), called by the host. They change no register of the block (log 5). -/

namespace Sys2Proof.Machine

/-- FRAME.CMD: `Encode` of the named fields (R58). -/
def execFrameCmd (fields : NamedFields) (s : State) : Host.Outcome State Fault Refusal :=
  match encodeFrame (fieldList fields) with
  | .error k => .next (s.deliver (.raised (.encodeRange k)))
  | .ok b => .next (s.deliver (.encoded b))

/-- FRAME.RSP: `Decode` of a unit of any length, with `CTRL.STRICT` as the strictness bit (R60). -/
def execFrameRsp (bytes : List Byte) (s : State) : Host.Outcome State Fault Refusal :=
  match decodeUnit bytes bytes.length s.strict with
  | .error .length => .next (s.deliver (.raised .malformedLength))
  | .error (.checksum computed) => .next (s.deliver (.raised (.malformedChecksum computed)))
  | .ok d => .next (s.deliver (.decoded d))

end Sys2Proof.Machine
end

