-- ==== Sys2Proof/Machine/Dispatch.lean ====
section
/-! DEFINITION. The dispatch: one arm per instruction, each one direct call of its meaning. -/

namespace Sys2Proof.Machine

def exec (i : Instr) (s : State) : Host.Outcome State Fault Refusal :=
  match i with
  | .nop => Sys2Proof.Machine.execNop s
  | .wrf idx imm => Sys2Proof.Machine.execWrf idx imm s
  | .rdf idx => Sys2Proof.Machine.execRdf idx s
  | .push imm => Sys2Proof.Machine.execPush imm s
  | .rdb idx => Sys2Proof.Machine.execRdb idx s
  | .bclr => Sys2Proof.Machine.execBclr s
  | .enc => Sys2Proof.Machine.execEnc s
  | .dec => Sys2Proof.Machine.execDec s
  | .rdsr idx => Sys2Proof.Machine.execRdsr idx s
  | .wrsr idx imm => Sys2Proof.Machine.execWrsr idx imm s
  | .frameCmd fields => Sys2Proof.Machine.execFrameCmd fields s
  | .frameRsp bytes => Sys2Proof.Machine.execFrameRsp bytes s
  | .modeTx => Sys2Proof.Machine.execModeTx s
  | .modeRx => Sys2Proof.Machine.execModeRx s
  | .modeTxF => Sys2Proof.Machine.execModeTxF s
  | .modeRxF => Sys2Proof.Machine.execModeRxF s
  | .modeServiceF => Sys2Proof.Machine.execModeServiceF s
  | .modeOtaF => Sys2Proof.Machine.execModeOtaF s
  | .ctrCmd => Sys2Proof.Machine.execCtrCmd s
  | .ctrBroadcastCmd => Sys2Proof.Machine.execCtrBroadcastCmd s
  | .ctrRead => Sys2Proof.Machine.execCtrRead s
  | .ctrBindStart => Sys2Proof.Machine.execCtrBindStart s
  | .ctrBindStop => Sys2Proof.Machine.execCtrBindStop s
  | .ctrClear => Sys2Proof.Machine.execCtrClear s
  | .ctrClearAll => Sys2Proof.Machine.execCtrClearAll s
  | .ctrUnbind => Sys2Proof.Machine.execCtrUnbind s
  | .ctrCmdFAddr => Sys2Proof.Machine.execCtrCmdFAddr s
  | .cmdOff => Sys2Proof.Machine.execCmdOff s
  | .cmdOn => Sys2Proof.Machine.execCmdOn s
  | .cmdBatteryLow => Sys2Proof.Machine.execCmdBatteryLow s
  | .cmdSensorTempHum => Sys2Proof.Machine.execCmdSensorTempHum s
  | .cmdTemporaryOn => Sys2Proof.Machine.execCmdTemporaryOn s
  | .cmdSendState => Sys2Proof.Machine.execCmdSendState s

end Sys2Proof.Machine
end

