-- ==== Sys2Proof/Machine/Step.lean ====
section
/-! DEFINITION. One step: the block takes the host's next event and completes it (00_scope.md R9; 20_memory.md R35). -/

namespace Sys2Proof.Machine

/-- One step. With nothing presented the block waits and nothing changes (R9, R80, R90; log 2). Reset takes one step
and gives no response (R89). A request runs its instruction, or is answered as one that spells none (R79, R48). -/
def step (s : State) : Host.Outcome State Fault Refusal :=
  match fetch s with
  | .idle => .next s
  | .reset => .next s.takeEvent.resetBlock
  | .run i => exec i s.takeEvent
  | .rejected why => .next (s.takeEvent.reject why)

/-- `s` with the host about to present the request that a table row of `nbits` bits with value `w` spells: it is what
the very next step takes. The machine holds no program (R14); log 4. -/
def State.withFetchWord (s : State) (nbits w : Nat) : State :=
  { s with inbox := .issue (tableRequest nbits w) :: s.inbox }

end Sys2Proof.Machine
end

