-- ==== Sys2Proof/Machine/Assembler.lean ====
section
/-! DEFINITION. The assembler syntax of 30_encoding.md R56: one operation a line, and the pseudo-operation `frame`.
It is "not a property of the hardware" (D19): no step depends on this file. -/

namespace Sys2Proof.Machine

/-- The pseudo-operation `frame b0 b1 .. b16`: `bclr`, then `push` of each byte (R56). -/
def framePseudo (b : List Byte) : List Instr := .bclr :: b.map Instr.push

/-- What has been collected of a token, if anything. -/
def asmFlush (collected : List Char) : List (List Char) :=
  if collected.isEmpty then [] else [collected.reverse]

/-- The tokens of a line: white space separates, a comma is a token, `;` starts a comment (R56). -/
def asmTokens : List Char → List Char → List (List Char)
  | collected, [] => asmFlush collected
  | collected, c :: cs =>
    if c = ';' then asmFlush collected
    else if c = ' ' ∨ c = '\t' then asmFlush collected ++ asmTokens [] cs
    else if c = ',' then asmFlush collected ++ [','] :: asmTokens [] cs
    else asmTokens (c :: collected) cs

/-- The value of a hexadecimal digit. -/
def asmDigit (c : Char) : Option Nat :=
  let n := c.toNat
  if 48 ≤ n ∧ n ≤ 57 then some (n - 48)
  else if 65 ≤ n ∧ n ≤ 70 then some (n - 55)
  else if 97 ≤ n ∧ n ≤ 102 then some (n - 87)
  else none

/-- The digits of a number in a base, most significant first. -/
def asmDigits (base : Nat) : Nat → List Char → Option Nat
  | value, [] => some value
  | value, c :: cs =>
    match asmDigit c with
    | some d => if d < base then asmDigits base (base * value + d) cs else none
    | none => none

/-- A number: decimal, or hexadecimal after `0x` (R6, R56). -/
def asmNumber : List Char → Option Nat
  | [] => none
  | '0' :: 'x' :: cs => if cs.isEmpty then none else asmDigits 16 0 cs
  | cs => asmDigits 10 0 cs

/-- A byte of `frame`: hexadecimal, with or without `0x`, as R6 and the programs write frames (log 15). -/
def asmFrameByte (tok : List Char) : Option Byte :=
  let digits := match tok with
    | '0' :: 'x' :: cs => cs
    | cs => cs
  if digits.isEmpty then none
  else
    match asmDigits 16 0 digits with
    | some n => if n ≤ 255 then some (BitVec.ofNat 8 n) else none
    | none => none

/-- A number of at most `top`. -/
def asmUpTo (top : Nat) (tok : List Char) : Option Nat :=
  match asmNumber tok with
  | some n => if n ≤ top then some n else none
  | none => none

/-- The position of a name in a list of names. -/
def asmNamed (names : List String) (tok : List Char) : Option Nat :=
  let at_ := names.findIdx fun n => n.toList == tok
  if at_ < names.length then some at_ else none

/-- The names of the field registers, by frame offset (R10). -/
def fieldNames : List String :=
  ["st", "mode", "ctr", "res", "ch", "cmd", "fmt", "d0", "d1", "d2", "d3", "id0", "id1", "id2", "id3"]

/-- The names of the system registers, by number (R15). -/
def sysRegNames : List String := ["ctrl", "status", "csum", "blen"]

/-- A register operand: its name, or its number up to `top` (R56). -/
def asmRegister (names : List String) (top : Nat) (tok : List Char) : Option Byte :=
  match asmNamed names tok with
  | some n => some (BitVec.ofNat 8 n)
  | none => (asmUpTo top tok).map (BitVec.ofNat 8)

/-- The two operands of `wrf` and `wrsr`: a register, a comma, a 16-bit value (R56). -/
def asmWrite (make : Byte → Half → Instr) (reg : Option Byte) (value : List Char) : Option (List Instr) :=
  match reg, asmUpTo 65535 value with
  | some r, some v => some [make r (BitVec.ofNat 16 v)]
  | _, _ => none

/-- One operand that is a byte. -/
def asmOne (make : Byte → Instr) (operand : Option Byte) : Option (List Instr) :=
  operand.map fun b => [make b]

/-- The operands of an operation that is neither `frame` nor without operands (R56). -/
def asmOperands (op : List Char) (args : List (List Char)) : Option (List Instr) :=
  match args with
  | [a] =>
    if op = "rdf".toList then asmOne Instr.rdf (asmRegister fieldNames 14 a)
    else if op = "push".toList then asmOne Instr.push ((asmUpTo 255 a).map (BitVec.ofNat 8))
    else if op = "rdb".toList then asmOne Instr.rdb ((asmUpTo 16 a).map (BitVec.ofNat 8))
    else if op = "rdsr".toList then asmOne Instr.rdsr (asmRegister sysRegNames 3 a)
    else none
  | [a, [','], v] =>
    if op = "wrf".toList then asmWrite Instr.wrf (asmRegister fieldNames 14 a) v
    else if op = "wrsr".toList then asmWrite Instr.wrsr (asmRegister sysRegNames 3 a) v
    else none
  | _ => none

/-- The operations of a line's tokens; `none` is a line that is not of R56's syntax. -/
def asmLineTokens : List (List Char) → Option (List Instr)
  | [] => some []
  | op :: args =>
    if op = "frame".toList then
      let bytes := args.filterMap asmFrameByte
      if args.length = 17 ∧ bytes.length = 17 then some (framePseudo bytes) else none
    else if args.isEmpty then
      if op = "nop".toList then some [.nop]
      else if op = "bclr".toList then some [.bclr]
      else if op = "enc".toList then some [.enc]
      else if op = "dec".toList then some [.dec]
      else none
    else asmOperands op args

/-- The operations one line of assembler text stands for (R56). -/
def assembleLine (line : String) : Option (List Instr) := asmLineTokens (asmTokens [] line.toList)

/-- The command words of one line (R49, R56). -/
def assembleRequests (line : String) : Option (List Request) := (assembleLine line).map (List.map encode)

end Sys2Proof.Machine
end

