-- ==== Sys2Proof/Safety.lean ====
section
/-! DEFINITION. What counts as a safe run, in the terms the statements use: the invariant of the state, and the host's
view of the block. -/

namespace Sys2Proof.Machine

/-- `STATUS` as R19 says it reads: reserved bits 0, `LAST` and `ERR` never 3 (R19, R20, U11, U12), each error with its
operation, and a flag that does not apply 0. -/
def StatusLegal (w : Half) : Prop :=
  statusReserved w = 0
    ∧ statusLast w ≠ 3
    ∧ statusErr w ≠ 3
    ∧ (statusLast w = 0 → w = 0)
    ∧ (statusErr w = errEncodeRange → statusLast w = lastEnc)
    ∧ (statusErr w = errMalformed → statusLast w = lastDec)
    ∧ (statusErr w = errEncodeRange ↔ statusEidx w ≠ 0)
    ∧ statusEidx w ≠ 15
    ∧ (statusLenOk w = true → statusLast w = lastDec)
    ∧ (statusCrcOk w = true → statusLenOk w = true ∧ statusErr w = errNone)

/-- `CTRL` as R16 says it reads: bits 15:1 are 0. -/
def CtrlLegal (w : Half) : Prop := ctrlReserved w = 0

/-- A response word as R51 says: `code` 0 to 3, bits 23:16 zero, and no data with an error. -/
def ResponseLegal (w : CmdWord) : Prop :=
  w.extractLsb' 24 8 ≤ (3 : Byte)
    ∧ w.extractLsb' 16 8 = (0 : Byte)
    ∧ (w.extractLsb' 24 8 ≠ (0 : Byte) → w.extractLsb' 0 16 = (0 : Half))

/-- Every response word among the answers is legal (R51). -/
def AnswerLegal : Answer → Prop
  | .response w => ResponseLegal w
  | .encoded b => b.length = 17
  | .decoded d => d.content.length = 15
  | .raised e => e ≠ .illegalOperation
  | .member m offset v => offset = m.kind.offset ∧ v = m.value
  | .noName kind v _ => findName kind v = none

/-- The invariant of the state: the frame buffer in canonical form with no offset above 16 (R22, R25), `CTRL` and
`STATUS` legal, every answer legal. -/
structure State.Inv (s : State) : Prop where
  buf_wf : s.buf.wf = true
  ctrl_legal : CtrlLegal s.ctrl
  status_legal : StatusLegal s.status
  answers_legal : ∀ a ∈ s.outbox, AnswerLegal a

/-- Two states have the same block state, register by register and byte by byte (R24); the host's side is left out. -/
structure SameBlock (s t : State) : Prop where
  f_eq : t.f = s.f
  byte_eq : ∀ k, t.byteAt k = s.byteAt k
  blen_eq : t.blen = s.blen
  csum_eq : t.csum = s.csum
  ctrl_eq : t.ctrl = s.ctrl
  status_eq : t.status = s.status

/-- `F[1] + F[2] + .. + F[14]` over unsigned integers (R63). -/
def State.fieldSum (s : State) : Nat := ((List.range 14).map fun j => (s.field (j + 1)).toNat).sum

/-- `B[0] + B[1] + .. + B[14]` over unsigned integers (R65). -/
def State.byteSum (s : State) : Nat := ((List.range 15).map fun k => (s.byteAt k).toNat).sum

/-- Every operand of ENC passes its check (R59, R63). -/
def State.FieldsOk (s : State) : Prop := ∀ k, 1 ≤ k → k ≤ 14 → fieldOk k (s.field k) = true

/-- A list of operations executed one after the other, each complete before the next begins (R35). -/
def execAll : List Instr → State → Host.Outcome State Fault Refusal
  | [], s => .next s
  | i :: rest, s =>
    match exec i s with
    | .next t => execAll rest t
    | .fault r => .fault r
    | .refused r => .refused r

/-- The word raises IllegalOperation: whatever the state, the host that presents it gets code 3 and data 0, and nothing
of the block changes (R54, R79). -/
def RaisesIllegalOperation (w : CmdWord) : Prop :=
  ∀ (s : State) (rest : List HostEvent), s.inbox = .issue (.command w) :: rest →
    step s = .next { s with inbox := rest, outbox := s.outbox ++ [.response 0x03000000#32] }

/-- A safe outcome: the block goes on (R85). -/
def Continues (o : Host.Outcome State Fault Refusal) : Prop := ∃ t, o = .next t

end Sys2Proof.Machine
end

