-- ==== Sys2Proof/Certificates/Slice0/Obligations.lean ====
section
/-! DEFINITION. The statements for the provers. "Unchanged" is always said field by field or by an equation of whole
states; the frame buffer is read one byte at a time through `State.byteAt`, whose `k` is the frame offset. -/

open Sys2Proof Sys2Proof.Machine

/-! ### The step and the host's events -/

/-- R9, R35: a step whose next request decodes to an instruction is that instruction's execution, with the request taken
off the host's list and nothing else around it. That the host is a list in the state is the model's choice (log 1). -/
def Obligations.StepRunsTheDecodedInstruction : Prop :=
  ∀ (s : State) (r : Request) (rest : List HostEvent) (i : Instr),
    s.inbox = .issue r :: rest → decode r = .ok i → step s = exec i { s with inbox := rest }

/-- R79: an illegal command word is answered with code 3 and changes no state of the block, `STATUS` included. -/
def Obligations.IllegalWordChangesNothing : Prop :=
  ∀ (s : State) (w : CmdWord) (rest : List HostEvent) (why : Reject),
    s.inbox = .issue (.command w) :: rest → decode (.command w) = .error why →
      step s = .next { s with inbox := rest, outbox := s.outbox ++ [.response 0x03000000#32] }

/-- R80: with nothing presented by the host nothing happens in the block. The form of a step with no command is the
model's own (log 2). -/
def Obligations.IdleBlockWaits : Prop :=
  ∀ s : State, s.inbox = [] → step s = .next s

/-- R89: reset puts every piece of the block's state at its reset value and produces no response. What stands in the
host's lists is not the block's (log 3). -/
def Obligations.ResetEventResetsTheBlock : Prop :=
  ∀ (s : State) (rest : List HostEvent), s.inbox = .reset :: rest →
    ∃ t, step s = .next t
      ∧ (∀ i, i ≤ 14 → t.field i = 0)
      ∧ (∀ k, k ≤ 16 → t.byteAt k = 0)
      ∧ t.blen = 0 ∧ t.csum = 0 ∧ t.status = 0 ∧ t.ctrl = 0x0001#16 ∧ t.strict = true
      ∧ t.inbox = rest ∧ t.outbox = s.outbox

/-- R23: the values after reset. -/
def Obligations.ResetStateValues : Prop :=
  (∀ i, i ≤ 14 → State.reset.field i = 0)
    ∧ (∀ k, k ≤ 16 → State.reset.byteAt k = 0)
    ∧ State.reset.blen = 0 ∧ State.reset.csum = 0 ∧ State.reset.status = 0
    ∧ State.reset.strict = true ∧ ctrlReserved State.reset.ctrl = 0

/-- R51: every command word, legal or not, gets exactly one response word, with code 0 to 3, bits 23:16 zero and no data
unless the code is 0. That the host's events and answers are lists in the state, of which the first event is taken, is the
model's choice (log 1). -/
def Obligations.OneResponsePerCommandWord : Prop :=
  ∀ (s : State) (w : CmdWord) (rest : List HostEvent), s.inbox = .issue (.command w) :: rest →
    ∃ t r, step s = .next t ∧ t.inbox = rest ∧ t.outbox = s.outbox ++ [.response r]
      ∧ (r.extractLsb' 24 8).toNat ≤ 3 ∧ r.extractLsb' 16 8 = 0
      ∧ (r.extractLsb' 24 8 ≠ 0 → r.extractLsb' 0 16 = 0)
      ∧ (r.extractLsb' 0 16 ≠ 0 → (w.extractLsb' 24 8).toNat = 2 ∨ (w.extractLsb' 24 8).toNat = 4
          ∨ (w.extractLsb' 24 8).toNat = 8)

/-- How a step moves the host's two lists. All of it is the MODEL'S CHOICE, none of it a rule of the spec: that the host is
a list of events and a list of answers in the state (log 1), that a step with no event leaves both alone (log 2), and that
reset takes its own event and adds no answer but leaves the rest of both lists (log 3). It says: a step takes the first
event, if there is one, and no other; earlier answers are never changed, and at most one is added. -/
def Obligations.StepTakesOneEventInOrder : Prop :=
  ∀ (s t : State), step s = .next t →
    t.inbox = s.inbox.tail ∧ ∃ new, t.outbox = s.outbox ++ new ∧ new.length ≤ 1

/-- R85: no error is fatal: from every state whatever, a step gives a next state; there is no fault and no refusal. -/
def Obligations.NoStepStops : Prop :=
  ∀ s : State, Continues (step s)

/-- The invariant (canonical buffer, legal `CTRL`, legal `STATUS`, legal answers) is kept by every step, from every
state that has it. -/
def Obligations.StepKeepsStateLegal : Prop :=
  ∀ (s t : State), s.Inv → step s = .next t → t.Inv

/-- The invariant holds right after reset. -/
def Obligations.ResetStateLegal : Prop := State.reset.Inv

/-- Two states that meet the invariant and whose buffers read the same at every offset 0 to 16 hold equal buffers. -/
def Obligations.EqualBytesAreEqualBuffers : Prop :=
  ∀ (s t : State), s.Inv → t.Inv → (∀ k, k ≤ 16 → s.byteAt k = t.byteAt k) → s.buf = t.buf

/-! ### Encodings -/

/-- R54, R79: a command word that meets one of (a) to (e) raises IllegalOperation with no state change at all, and every
other word is one of the ten operations, exactly as tabled. -/
def Obligations.IllegalWordsAreExactlyThose : Prop :=
  ∀ w : CmdWord,
    let opf := w.extractLsb' 24 8
    let idxf := w.extractLsb' 16 8
    let immf := w.extractLsb' 0 16
    let op := opf.toNat
    let idx := idxf.toNat
    let imm := immf.toNat
    let illegal := 10 ≤ op
      ∨ ((op = 0 ∨ op = 3 ∨ op = 5 ∨ op = 6 ∨ op = 7) ∧ idx ≠ 0)
      ∨ ((op = 0 ∨ op = 2 ∨ op = 4 ∨ op = 5 ∨ op = 6 ∨ op = 7 ∨ op = 8) ∧ imm ≠ 0)
      ∨ ((op = 1 ∨ op = 2) ∧ 14 < idx)
      ∨ (op = 4 ∧ 16 < idx)
      ∨ ((op = 8 ∨ op = 9) ∧ 3 < idx)
      ∨ (op = 9 ∧ (idx = 1 ∨ idx = 2 ∨ idx = 3))
      ∨ (op = 3 ∧ 256 ≤ imm)
    (illegal → RaisesIllegalOperation w)
      ∧ (¬ illegal → ∃ i, decode (.command w) = .ok i
          ∧ (op = 0 ∧ i = .nop ∨ op = 1 ∧ i = .wrf idxf immf ∨ op = 2 ∧ i = .rdf idxf
            ∨ op = 3 ∧ i = .push (immf.setWidth 8) ∨ op = 4 ∧ i = .rdb idxf ∨ op = 5 ∧ i = .bclr ∨ op = 6 ∧ i = .enc
            ∨ op = 7 ∧ i = .dec ∨ op = 8 ∧ i = .rdsr idxf ∨ op = 9 ∧ i = .wrsr idxf immf))

/-- Decode and encode agree: every well-formed instruction, with every operand its encoding admits, is read back. -/
def Obligations.EveryInstructionDecodesBack : Prop :=
  ∀ i : Instr, i.WellFormed = true → decode (encode i) = .ok i

/-- The other direction: a word that decodes is the encoder's word of a well-formed instruction, so no bit of it is
ignored and no two words spell one operation. -/
def Obligations.DecodedWordIsTheEncodersWord : Prop :=
  ∀ (w : CmdWord) (i : Instr), decode (.command w) = .ok i → i.WellFormed = true ∧ encode i = .command w

/-- Words written out from the encodings of R49 and R50 decode to the operations they stand for. -/
def Obligations.SampleWordsDecode : Prop :=
  decode (.command 0x00000000#32) = .ok .nop
    ∧ decode (.command 0x01040100#32) = .ok (.wrf 4 256)
    ∧ decode (.command 0x020E0000#32) = .ok (.rdf 14)
    ∧ decode (.command 0x030000AB#32) = .ok (.push 171)
    ∧ decode (.command 0x04100000#32) = .ok (.rdb 16)
    ∧ decode (.command 0x05000000#32) = .ok .bclr
    ∧ decode (.command 0x06000000#32) = .ok .enc
    ∧ decode (.command 0x07000000#32) = .ok .dec
    ∧ decode (.command 0x08030000#32) = .ok (.rdsr 3)
    ∧ decode (.command 0x0900FFFE#32) = .ok (.wrsr 0 0xFFFE)
    ∧ decode (.nameCall .mode 3) = .ok .modeRxF
    ∧ decode (.nameCall .ctr 8) = .ok .ctrCmdFAddr
    ∧ decode (.nameCall .cmd 130) = .ok .cmdSendState

/-- R48: a byte of an enumeration that no row names is unknown for `mode` and `ctr`, and for `cmd` unknown unless
`CMD_VALID` holds it; the look-up changes nothing of the block. The look-up as a request is the model's own (log 6). -/
def Obligations.UnnamedByteIsUnknown : Prop :=
  ∀ (s : State) (kind : Enumeration) (v : Byte) (rest : List HostEvent),
    s.inbox = .issue (.nameCall kind v) :: rest →
    (∀ m : Member, m.kind = kind → m.value ≠ v) →
      step s = .next { s with
        inbox := rest
        outbox := s.outbox ++ [.noName kind v (decide (kind = .cmd) && Config.cmdFurther v)] }

/-- R38, R47: the 17-byte image of a command frame reads back as its fields, and an image that reads as a command frame
is the image of those fields and of no others. -/
def Obligations.CommandImageReadsBack : Prop :=
  (∀ f : NamedFields, (Instr.frameCmd f).WellFormed = true → readCommandImage (writeCommandImage f) = some f)
    ∧ ∀ (b : List Byte) (f : NamedFields), readCommandImage b = some f →
        writeCommandImage f = b ∧ (Instr.frameCmd f).WellFormed = true

/-- The layout of `STATUS` (R19): written whole, every field reads back and bits 15:10 are 0 (R7). -/
def Obligations.StatusFieldsReadBack : Prop :=
  ∀ (last err : BitVec 2) (lenOk crcOk : Bool) (eidx : BitVec 4),
    let w := statusWord last err lenOk crcOk eidx
    statusLast w = last ∧ statusErr w = err ∧ statusLenOk w = lenOk ∧ statusCrcOk w = crcOk
      ∧ statusEidx w = eidx ∧ statusReserved w = 0

/-! ### The access operations -/

/-- R67: NOP is the all-zero word, and a word with `op` 0 and any other bit set is illegal; it answers code 0, data 0, and
changes nothing of the block. -/
def Obligations.NopChangesNothing : Prop :=
  decode (.command 0x00000000#32) = .ok .nop
    ∧ (∀ w : CmdWord, w.extractLsb' 24 8 = 0 → w ≠ 0 → RaisesIllegalOperation w)
    ∧ ∀ s : State, exec .nop s = .next { s with outbox := s.outbox ++ [.response 0x00000000#32] }

/-- R68: WRF (`op` 0x01) writes any 16-bit value to any of the fifteen registers, with no check, and nothing else changes;
an index of 15 or more is illegal; a WRF of `F[0]` makes no difference to a later ENC. -/
def Obligations.WrfWritesOneField : Prop :=
  ∀ (s : State) (idx : Byte) (imm : Half),
    let w := BitVec.ofNat 32 (0x01000000 + idx.toNat * 0x10000 + imm.toNat)
    (idx.toNat ≤ 14 → decode (.command w) = .ok (.wrf idx imm)
      ∧ ∃ t, exec (.wrf idx imm) s = .next t
        ∧ t.field idx.toNat = imm
        ∧ (∀ k, k ≤ 14 → k ≠ idx.toNat → t.field k = s.field k)
        ∧ (∀ k, t.byteAt k = s.byteAt k)
        ∧ t.blen = s.blen ∧ t.csum = s.csum ∧ t.ctrl = s.ctrl ∧ t.status = s.status
        ∧ t.inbox = s.inbox ∧ t.outbox = s.outbox ++ [.response 0x00000000#32])
    ∧ (15 ≤ idx.toNat → RaisesIllegalOperation w)
    ∧ (∀ t u v : State, exec (.wrf 0 imm) s = .next t → exec .enc t = .next u → exec .enc s = .next v →
        u.status = v.status ∧ (∀ k, u.byteAt k = v.byteAt k) ∧ u.blen = v.blen ∧ u.csum = v.csum)

/-- R69: RDF (`op` 0x02) returns the register and changes nothing of the block; an index of 15 or more, or an immediate
that is not 0, is illegal; after reset it returns 0, after a WRF what was written, after a successful DEC at most 255. -/
def Obligations.RdfReturnsTheField : Prop :=
  ∀ (s : State) (idx : Byte),
    let w := fun imm : Half => BitVec.ofNat 32 (0x02000000 + idx.toNat * 0x10000 + imm.toNat)
    (idx.toNat ≤ 14 → decode (.command (w 0)) = .ok (.rdf idx)
      ∧ exec (.rdf idx) s = .next { s with outbox := s.outbox ++ [.response ((s.field idx.toNat).setWidth 32)] })
    ∧ (∀ imm, 15 ≤ idx.toNat ∨ imm ≠ 0 → RaisesIllegalOperation (w imm))
    ∧ (idx.toNat ≤ 14 → State.reset.field idx.toNat = 0
      ∧ (∀ v t, exec (.wrf idx v) s = .next t → t.field idx.toNat = v)
      ∧ ∀ t, exec .dec s = .next t → statusErr t.status = 0 → (t.field idx.toNat).toNat ≤ 255)

/-- R70: PUSH (`op` 0x03) stores its byte at offset old `BLEN` if that is 16 or less, counts up to 255, and changes
nothing else; an index or an upper immediate byte that is not 0 is illegal. The premise of the effect is the model's
canonical form of the buffer (`StepKeepsStateLegal`). -/
def Obligations.PushAppendsAndCounts : Prop :=
  (∀ idx imm, idx ≠ 0 ∨ 256 ≤ imm.toNat →
    RaisesIllegalOperation (BitVec.ofNat 32 (0x03000000 + (idx : Byte).toNat * 0x10000 + (imm : Half).toNat)))
  ∧ ∀ (s : State) (b : Byte), s.buf.wf = true →
    decode (.command (BitVec.ofNat 32 (0x03000000 + b.toNat))) = .ok (.push b)
    ∧ ∃ t, exec (.push b) s = .next t
      ∧ (s.blen.toNat ≤ 16 → t.byteAt s.blen.toNat = b)
      ∧ (∀ k, (s.blen.toNat ≤ 16 → k ≠ s.blen.toNat) → t.byteAt k = s.byteAt k)
      ∧ t.blen.toNat = min (s.blen.toNat + 1) 255
      ∧ (∀ i, i ≤ 14 → t.field i = s.field i)
      ∧ t.csum = s.csum ∧ t.ctrl = s.ctrl ∧ t.status = s.status
      ∧ t.inbox = s.inbox ∧ t.outbox = s.outbox ++ [.response 0x00000000#32]

/-- R71: RDB (`op` 0x04) returns the byte, whatever `BLEN` is, and changes nothing of the block, `BLEN` included; an
offset of 17 or more, or an immediate that is not 0, is illegal. -/
def Obligations.RdbReturnsTheByte : Prop :=
  ∀ (s : State) (idx : Byte),
    let w := fun imm : Half => BitVec.ofNat 32 (0x04000000 + idx.toNat * 0x10000 + imm.toNat)
    (idx.toNat ≤ 16 → decode (.command (w 0)) = .ok (.rdb idx)
      ∧ exec (.rdb idx) s = .next { s with outbox := s.outbox ++ [.response ((s.byteAt idx.toNat).setWidth 32)] })
    ∧ (∀ imm, 17 ≤ idx.toNat ∨ imm ≠ 0 → RaisesIllegalOperation (w imm))

/-- R72: BCLR (0x05000000) sets `BLEN` to 0 and changes nothing else; the bytes keep their values; a word with `op` 5 and
any other bit set is illegal. (R72's remark that nothing but BCLR and reset brings a `BLEN` above 17 down is not stated:
a successful ENC sets it to 17 by R17 and R63; log 16.) -/
def Obligations.BclrClearsTheCountOnly : Prop :=
  decode (.command 0x05000000#32) = .ok .bclr
    ∧ (∀ w : CmdWord, w.extractLsb' 24 8 = 5 → w ≠ 0x05000000#32 → RaisesIllegalOperation w)
    ∧ ∀ s : State, exec .bclr s = .next { s with blen := 0, outbox := s.outbox ++ [.response 0x00000000#32] }

/-- R73: RDSR (`op` 0x08) returns `CTRL`, `STATUS`, `CSUM` or `BLEN`, the last two zero-extended, and changes nothing of
the block; a number of 4 or more, or an immediate that is not 0, is illegal; straight after reset `CTRL` is 1 and
`STATUS` is 0. -/
def Obligations.RdsrReturnsTheRegister : Prop :=
  (∀ s : State,
    exec (.rdsr 0) s = .next { s with outbox := s.outbox ++ [.response (s.ctrl.setWidth 32)] }
      ∧ exec (.rdsr 1) s = .next { s with outbox := s.outbox ++ [.response (s.status.setWidth 32)] }
      ∧ exec (.rdsr 2) s = .next { s with outbox := s.outbox ++ [.response (s.csum.setWidth 32)] }
      ∧ exec (.rdsr 3) s = .next { s with outbox := s.outbox ++ [.response (s.blen.setWidth 32)] })
    ∧ (∀ idx : Byte,
      let w := fun imm : Half => BitVec.ofNat 32 (0x08000000 + idx.toNat * 0x10000 + imm.toNat)
      (idx.toNat ≤ 3 → decode (.command (w 0)) = .ok (.rdsr idx))
      ∧ (∀ imm, 4 ≤ idx.toNat ∨ imm ≠ 0 → RaisesIllegalOperation (w imm)))
    ∧ State.reset.ctrl = 1 ∧ State.reset.status = 0

/-- R74: WRSR (`op` 0x09) to `CTRL` keeps bit 0 of the value as `STRICT`, ignores bits 15:1, and changes nothing else; a
word with any other number raises IllegalOperation with no state change, and so does the operation itself. -/
def Obligations.WrsrWritesStrictOnly : Prop :=
  ∀ (s : State) (idx : Byte) (v : Half),
    let w := BitVec.ofNat 32 (0x09000000 + idx.toNat * 0x10000 + v.toNat)
    (idx = 0 → decode (.command w) = .ok (.wrsr idx v)
      ∧ ∃ t, exec (.wrsr idx v) s = .next t
        ∧ t.strict = v.getLsbD 0 ∧ t.ctrl.toNat = v.toNat % 2
        ∧ t = { s with ctrl := t.ctrl, outbox := s.outbox ++ [.response 0x00000000#32] })
    ∧ (idx ≠ 0 → RaisesIllegalOperation w
      ∧ exec (.wrsr idx v) s = .next { s with outbox := s.outbox ++ [.response 0x03000000#32] })

/-- R27: an index outside its space is no access: the word raises IllegalOperation, and so does the operation itself;
nothing is read, nothing is written, and no high index stands for a low one. -/
def Obligations.IndexOutsideItsSpaceIsIllegal : Prop :=
  (∀ w : CmdWord,
    let op := (w.extractLsb' 24 8).toNat
    let idx := (w.extractLsb' 16 8).toNat
    ((op = 1 ∨ op = 2) ∧ 15 ≤ idx ∨ op = 4 ∧ 17 ≤ idx ∨ (op = 8 ∨ op = 9) ∧ 4 ≤ idx) → RaisesIllegalOperation w)
  ∧ ∀ (s : State) (idx : Byte) (imm : Half) (i : Instr),
    (i = .wrf idx imm ∧ 15 ≤ idx.toNat ∨ i = .rdf idx ∧ 15 ≤ idx.toNat ∨ i = .rdb idx ∧ 17 ≤ idx.toNat
      ∨ i = .rdsr idx ∧ 4 ≤ idx.toNat ∨ i = .wrsr idx imm ∧ 4 ≤ idx.toNat) →
    exec i s = .next { s with outbox := s.outbox ++ [.response 0x03000000#32] }

/-- R70 over a whole unit: after BCLR and the pushes of any bytes, the buffer holds the first seventeen at their offsets,
`BLEN` is their number saturated at 255, and no other register has moved. `framePseudo` is R56's `frame`. -/
def Obligations.PushedUnitIsLoaded : Prop :=
  ∀ (s : State) (b : List Byte), s.buf.wf = true →
    ∃ t, execAll (framePseudo b) s = .next t
      ∧ (∀ k, k < min b.length 17 → t.byteAt k = b.getD k 0)
      ∧ (∀ k, min b.length 17 ≤ k → t.byteAt k = s.byteAt k)
      ∧ t.blen.toNat = min b.length 255
      ∧ t.f = s.f ∧ t.csum = s.csum ∧ t.ctrl = s.ctrl ∧ t.status = s.status
      ∧ t.outbox = s.outbox ++ List.replicate (b.length + 1) (.response 0x00000000#32)

/-! ### ENC -/

/-- R59: the whole of the encoder's checking, `CMD_VALID` left open above its six named members (R44). -/
def Obligations.FieldCheckIsWidthAndMembership : Prop :=
  ∀ (k : Nat) (v : Half),
    (fieldOk k v = true ↔ v.toNat ≤ 255 ∧ (k = 1 → v.toNat ≤ 5) ∧ (k = 2 → v.toNat ≤ 8)
      ∧ (k = 5 → cmdValid v.toNat = true))
    ∧ (∀ n, (n = 0 ∨ n = 2 ∨ n = 20 ∨ n = 21 ∨ n = 25 ∨ n = 130) → cmdValid n = true)
    ∧ (∀ n, cmdValid n = true → n ≤ 255)

/-- R63, the success: the whole effect of ENC when every field passes. -/
def Obligations.EncWritesTheFrame : Prop :=
  ∀ s : State, s.buf.wf = true → s.FieldsOk →
    ∃ t, exec .enc s = .next t
      ∧ t.byteAt 0 = 171
      ∧ (∀ k, 1 ≤ k → k ≤ 14 → (t.byteAt k).toNat = (s.field k).toNat)
      ∧ (t.byteAt 15).toNat = (171 + s.fieldSum) % 256
      ∧ t.byteAt 16 = 172
      ∧ (∀ k, 17 ≤ k → t.byteAt k = s.byteAt k)
      ∧ t.blen = 17
      ∧ t.csum = t.byteAt 15
      ∧ t.status = 0x0001#16
      ∧ t.f = s.f ∧ t.ctrl = s.ctrl
      ∧ t.inbox = s.inbox ∧ t.outbox = s.outbox ++ [.response 0x00000000#32]

/-- R76 (R63, R82): ENC with a bad field reports the lowest one, `EIDX` = `k` (`STATUS` = 64 k + 5), answers code 1 and
changes nothing else. -/
def Obligations.EncReportsTheLowestBadField : Prop :=
  ∀ (s : State) (k : Nat), 1 ≤ k → k ≤ 14 →
    (∀ j, 1 ≤ j → j < k → fieldOk j (s.field j) = true) → fieldOk k (s.field k) = false →
      exec .enc s = .next { s with
        status := BitVec.ofNat 16 (64 * k + 5)
        outbox := s.outbox ++ [.response 0x01000000#32] }

/-- R63, R12: ENC never reads `F[0]`, the buffer, `BLEN` or `CTRL`: two states that agree on `F[1]` to `F[14]` get the
same answer and `STATUS`, and, when ENC succeeds, the same frame, `BLEN` and `CSUM`. -/
def Obligations.EncReadsOnlyTheNamedFields : Prop :=
  ∀ (s s' t t' : State), s.buf.wf = true → s'.buf.wf = true →
    (∀ k, 1 ≤ k → k ≤ 14 → s'.field k = s.field k) →
    exec .enc s = .next t → exec .enc s' = .next t' →
      (∃ a, t.outbox = s.outbox ++ [a] ∧ t'.outbox = s'.outbox ++ [a])
      ∧ t'.status = t.status
      ∧ (statusErr t.status = 0 → (∀ k, k ≤ 16 → t'.byteAt k = t.byteAt k) ∧ t'.blen = t.blen ∧ t'.csum = t.csum)

/-- R64 (j): ENC is idempotent: a second ENC with nothing between gives the same block state. -/
def Obligations.EncIsIdempotent : Prop :=
  ∀ (s t u : State), s.buf.wf = true → exec .enc s = .next t → exec .enc t = .next u → SameBlock t u

/-! ### DEC -/

/-- R77: DEC with `BLEN` not 17 fails by length, whatever `STRICT` is: `STATUS` = 0x000A, code 2, nothing else. -/
def Obligations.DecWrongLengthFails : Prop :=
  ∀ s : State, s.blen ≠ 17 →
    exec .dec s = .next { s with status := 0x000A#16, outbox := s.outbox ++ [.response 0x02000000#32] }

/-- R78: DEC with `BLEN` = 17, a mismatch and `STRICT` = 1: `CSUM` = the recomputed checksum, `STATUS` = 0x001A, code 2,
nothing else. With `STRICT` = 0 the same mismatch is no error: code 0, the fields delivered, `STATUS` = 0x0012. -/
def Obligations.DecBadChecksum : Prop :=
  ∀ s : State, s.blen = 17 → s.byteSum % 256 ≠ (s.byteAt 15).toNat →
    (s.strict = true → exec .dec s = .next { s with
        csum := BitVec.ofNat 8 s.byteSum
        status := 0x001A#16
        outbox := s.outbox ++ [.response 0x02000000#32] })
    ∧ (s.strict = false → ∃ t, exec .dec s = .next t
        ∧ t.status = 0x0012#16 ∧ t.csum = BitVec.ofNat 8 s.byteSum
        ∧ (∀ k, k ≤ 14 → t.field k = (s.byteAt k).setWidth 16)
        ∧ t.outbox = s.outbox ++ [.response 0x00000000#32])

/-- R65, the success: the whole effect of DEC when `BLEN` = 17 and the checksum matches or `STRICT` is 0. -/
def Obligations.DecDeliversTheFields : Prop :=
  ∀ s : State, s.blen = 17 → (s.byteSum % 256 = (s.byteAt 15).toNat ∨ s.strict = false) →
    ∃ t, exec .dec s = .next t
      ∧ (∀ k, k ≤ 14 → t.field k = (s.byteAt k).setWidth 16)
      ∧ t.csum.toNat = s.byteSum % 256
      ∧ t.status = (if s.byteSum % 256 = (s.byteAt 15).toNat then 0x0032#16 else 0x0012#16)
      ∧ (∀ k, t.byteAt k = s.byteAt k)
      ∧ t.blen = s.blen ∧ t.ctrl = s.ctrl
      ∧ t.inbox = s.inbox ∧ t.outbox = s.outbox ++ [.response 0x00000000#32]

/-- R65, R21: DEC never reads `B[16]`, `F`, `STATUS` or `CSUM`: two states that agree on `BLEN`, `B[0]` to `B[15]` and
`STRICT` get the same answer and `STATUS`, the same `CSUM` when `BLEN` is 17, and the same fields when DEC succeeds. -/
def Obligations.DecReadsOnlyTheFrame : Prop :=
  ∀ (s s' t t' : State), s'.blen = s.blen → (∀ k, k ≤ 15 → s'.byteAt k = s.byteAt k) → s'.strict = s.strict →
    exec .dec s = .next t → exec .dec s' = .next t' →
      (∃ a, t.outbox = s.outbox ++ [a] ∧ t'.outbox = s'.outbox ++ [a])
      ∧ t'.status = t.status
      ∧ (s.blen = 17 → t'.csum = t.csum)
      ∧ (statusErr t.status = 0 → t'.f = t.f)

/-- R66 (j): DEC is idempotent: a second DEC with nothing between gives the same block state. -/
def Obligations.DecIsIdempotent : Prop :=
  ∀ (s t u : State), exec .dec s = .next t → exec .dec t = .next u → SameBlock t u

/-- R66 (i), the loop-back: DEC straight after a successful ENC succeeds with `CRC_OK` = 1 for either value of `STRICT`,
leaves `F[1]` to `F[14]` as they were and `F[0]` = 171. -/
def Obligations.DecAfterEncRestoresTheFields : Prop :=
  ∀ s : State, s.buf.wf = true → s.FieldsOk →
    ∃ t u, exec .enc s = .next t ∧ exec .dec t = .next u
      ∧ u.field 0 = 171
      ∧ (∀ k, 1 ≤ k → k ≤ 14 → u.field k = s.field k)
      ∧ u.status = 0x0032#16 ∧ u.csum = t.csum
      ∧ u.outbox = s.outbox ++ [.response 0x00000000#32, .response 0x00000000#32]

/-! ### The pure functions -/

/-- R57: the checksum is the unsigned sum mod 256; an 8-bit accumulator that drops carries gives the same; it is
symmetric in its arguments; changing one byte by `x` changes it by `x`; the sum of 15 bytes is at most 3825. -/
def Obligations.ChecksumIsTheSumModulo256 : Prop :=
  ∀ c : List Byte,
    (checksum c).toNat = (c.map BitVec.toNat).sum % 256
      ∧ checksum c = c.foldl (fun acc b => acc + b) 0
      ∧ (∀ c' : List Byte, c.Perm c' → checksum c' = checksum c)
      ∧ (∀ (j : Nat) (x : Byte), j < c.length → checksum (c.set j (c.getD j 0 + x)) = checksum c + x)
      ∧ (c.length = 15 → (c.map BitVec.toNat).sum ≤ 3825)

/-- R39: every frame a successful Encode produces, and every frame a successful ENC leaves in the buffer, is 17 bytes
long, starts with 171, ends with 172, and has at offset 15 the sum of offsets 0 to 14 modulo 256. -/
def Obligations.EncodedFrameHasItsConstants : Prop :=
  (∀ (f : NamedFields) (b : List Byte), encodeFrame (fieldList f) = .ok b →
    b.length = 17 ∧ b.getD 0 0 = 171 ∧ b.getD 16 0 = 172
      ∧ (b.getD 15 0).toNat = ((b.take 15).map BitVec.toNat).sum % 256)
  ∧ ∀ s t : State, s.buf.wf = true → exec .enc s = .next t → statusErr t.status = 0 →
    t.blen = 17 ∧ t.byteAt 0 = 171 ∧ t.byteAt 16 = 172 ∧ (t.byteAt 15).toNat = t.byteSum % 256

/-- R62, whole: the round trip of valid fields for both values of `strict`; the other direction, when re-encoding a
decoded unit gives that unit back; and Encode is injective on valid fields. -/
def Obligations.EncodeDecodeRoundTrip : Prop :=
  (∀ (f : NamedFields) (strict : Bool),
      (∀ k, 1 ≤ k → k ≤ 14 → fieldOk k ((fieldList f).getD (k - 1) 0) = true) →
      ∃ b, encodeFrame (fieldList f) = .ok b
        ∧ ∃ d, decodeUnit b 17 strict = .ok d
          ∧ (∀ k, 1 ≤ k → k ≤ 14 → (d.content.getD k 0).toNat = ((fieldList f).getD (k - 1) 0).toNat)
          ∧ d.content.getD 0 0 = 171 ∧ d.crcOk = true ∧ d.sum = b.getD 15 0)
    ∧ (∀ (b : List Byte) (strict : Bool) (d : Decoded), b.length = 17 → decodeUnit b 17 strict = .ok d →
        (encodeFrame ((d.content.drop 1).map fun g => g.setWidth 16) = .ok b ↔
          b.getD 0 0 = 171 ∧ b.getD 16 0 = 172 ∧ b.getD 15 0 = checksum (b.take 15)
            ∧ modeValid (b.getD 1 0).toNat = true ∧ ctrValid (b.getD 2 0).toNat = true
            ∧ cmdValid (b.getD 5 0).toNat = true))
    ∧ (∀ (f f' : NamedFields) (b b' : List Byte), encodeFrame (fieldList f) = .ok b → encodeFrame (fieldList f') = .ok b' →
        f ≠ f' → ∃ k, 1 ≤ k ∧ k ≤ 14 ∧ b.getD k 0 ≠ b'.getD k 0)

/-- R58: the call of Encode answers the frame of its fields, or EncodeRangeError with the offset of the first bad field.
That a call changes no register is the model's choice (log 5). -/
def Obligations.EncodeCallAnswersTheFrame : Prop :=
  ∀ (s : State) (f : NamedFields),
    ((∀ k, 1 ≤ k → k ≤ 14 → fieldOk k ((fieldList f).getD (k - 1) 0) = true) →
      ∃ b, exec (.frameCmd f) s = .next { s with outbox := s.outbox ++ [.encoded b] }
        ∧ b.length = 17 ∧ b.getD 0 0 = 171 ∧ b.getD 16 0 = 172
        ∧ (∀ k, 1 ≤ k → k ≤ 14 → (b.getD k 0).toNat = ((fieldList f).getD (k - 1) 0).toNat)
        ∧ (b.getD 15 0).toNat = ((b.take 15).map BitVec.toNat).sum % 256)
    ∧ (∀ k, 1 ≤ k → k ≤ 14 →
        (∀ j, 1 ≤ j → j < k → fieldOk j ((fieldList f).getD (j - 1) 0) = true) →
        fieldOk k ((fieldList f).getD (k - 1) 0) = false →
        exec (.frameCmd f) s = .next { s with outbox := s.outbox ++ [.raised (.encodeRange k)] })

/-- R60: the call of Decode, in its three cases, on a unit of any length. That a call takes `STRICT` from `CTRL` and
changes no register is the model's choice (log 5). -/
def Obligations.DecodeCallAnswersTheContent : Prop :=
  ∀ (s : State) (b : List Byte),
    let sum := ((b.take 15).map BitVec.toNat).sum % 256
    (b.length ≠ 17 → exec (.frameRsp b) s = .next { s with outbox := s.outbox ++ [.raised .malformedLength] })
    ∧ (b.length = 17 → sum ≠ (b.getD 15 0).toNat → s.strict = true →
        exec (.frameRsp b) s
          = .next { s with outbox := s.outbox ++ [.raised (.malformedChecksum (BitVec.ofNat 8 sum))] })
    ∧ (b.length = 17 → (sum = (b.getD 15 0).toNat ∨ s.strict = false) →
        exec (.frameRsp b) s = .next { s with
          outbox := s.outbox ++ [.decoded {
            content := b.take 15
            crcOk := decide (sum = (b.getD 15 0).toNat)
            sum := BitVec.ofNat 8 sum }] })

/-- R42, R43, R44: every enumeration row answers its name, its frame offset and its value. That a look-up is a request of
the host that changes no register is the model's choice (log 6). -/
def Obligations.EnumerationRowsAnswerTheirValues : Prop :=
  ∀ s : State,
    let answers := fun (i : Instr) (m : Member) (offset : Nat) (v : Byte) =>
      exec i s = .next { s with outbox := s.outbox ++ [.member m offset v] }
    answers .modeTx (.mode .TX) 1 0 ∧ answers .modeRx (.mode .RX) 1 1 ∧ answers .modeTxF (.mode .TX_F) 1 2
      ∧ answers .modeRxF (.mode .RX_F) 1 3 ∧ answers .modeServiceF (.mode .SERVICE_F) 1 4
      ∧ answers .modeOtaF (.mode .OTA_F) 1 5
      ∧ answers .ctrCmd (.ctr .CMD) 2 0 ∧ answers .ctrBroadcastCmd (.ctr .BROADCAST_CMD) 2 1
      ∧ answers .ctrRead (.ctr .READ) 2 2 ∧ answers .ctrBindStart (.ctr .BIND_START) 2 3
      ∧ answers .ctrBindStop (.ctr .BIND_STOP) 2 4 ∧ answers .ctrClear (.ctr .CLEAR) 2 5
      ∧ answers .ctrClearAll (.ctr .CLEAR_ALL) 2 6 ∧ answers .ctrUnbind (.ctr .UNBIND) 2 7
      ∧ answers .ctrCmdFAddr (.ctr .CMD_F_ADDR) 2 8
      ∧ answers .cmdOff (.cmd .OFF) 5 0 ∧ answers .cmdOn (.cmd .ON) 5 2
      ∧ answers .cmdBatteryLow (.cmd .BATTERY_LOW) 5 20 ∧ answers .cmdSensorTempHum (.cmd .SENSOR_TEMP_HUM) 5 21
      ∧ answers .cmdTemporaryOn (.cmd .TEMPORARY_ON) 5 25 ∧ answers .cmdSendState (.cmd .SEND_STATE) 5 130

/-! ### Who writes what -/

/-- R20: `STATUS` is written by ENC and DEC and by no other instruction. -/
def Obligations.OnlyEncAndDecWriteStatus : Prop :=
  ∀ (i : Instr) (s t : State), exec i s = .next t → i ≠ .enc → i ≠ .dec → t.status = s.status

/-- R11: the field registers are written by WRF and DEC and by no other instruction, ENC among them. -/
def Obligations.OnlyWrfAndDecWriteFields : Prop :=
  ∀ (i : Instr) (s t : State), exec i s = .next t → (∀ idx imm, i ≠ .wrf idx imm) → i ≠ .dec →
    ∀ k, k ≤ 14 → t.field k = s.field k

/-- R26: the buffer is written by PUSH and a successful ENC and by no other instruction; a failed ENC writes no byte. -/
def Obligations.OnlyPushAndEncWriteTheBuffer : Prop :=
  ∀ (i : Instr) (s t : State), exec i s = .next t → (∀ b, i ≠ .push b) →
    (i = .enc → statusErr t.status ≠ 0) → ∀ k, t.byteAt k = s.byteAt k

/-- R17: `BLEN` is written by BCLR, PUSH and a successful ENC and by no other instruction. -/
def Obligations.OnlyBclrPushEncWriteBlen : Prop :=
  ∀ (i : Instr) (s t : State), exec i s = .next t → (∀ b, i ≠ .push b) → i ≠ .bclr →
    (i = .enc → statusErr t.status ≠ 0) → t.blen = s.blen

/-- R18: `CSUM` is written by a successful ENC and by a DEC with `BLEN` = 17, and by nothing else. -/
def Obligations.OnlyEncAndFullDecWriteCsum : Prop :=
  ∀ (i : Instr) (s t : State), exec i s = .next t → (i = .enc → statusErr t.status ≠ 0) →
    (i = .dec → s.blen ≠ 17) → t.csum = s.csum

/-- R15: `CTRL` is written by WRSR and by no other instruction ("Written by the block: never"). -/
def Obligations.OnlyWrsrWritesCtrl : Prop :=
  ∀ (i : Instr) (s t : State), exec i s = .next t → (∀ idx v, i ≠ .wrsr idx v) → t.ctrl = s.ctrl

/-- R33: every read operation is idempotent and has no side effect: it changes no state of the block, and reading twice
gives the same answer. -/
def Obligations.ReadsHaveNoSideEffect : Prop :=
  ∀ (i : Instr) (idx : Byte) (s : State), (i = .rdf idx ∨ i = .rdb idx ∨ i = .rdsr idx) →
    ∃ t u a, exec i s = .next t ∧ exec i t = .next u ∧ SameBlock s t ∧ SameBlock t u ∧ t.inbox = s.inbox
      ∧ t.outbox = s.outbox ++ [a] ∧ u.outbox = t.outbox ++ [a]

/-- R90: straight after reset RDF and RDB give 0 at every index, RDSR gives 0x0001, 0, 0, 0, a DEC fails by length, and an
ENC succeeds with the frame AB 00 .. 00 AB AC. -/
def Obligations.FirstCommandAfterReset : Prop :=
  (∀ idx : Byte, idx.toNat ≤ 14 →
      exec (.rdf idx) State.reset = .next { State.reset with outbox := [.response 0x00000000#32] })
    ∧ (∀ idx : Byte, idx.toNat ≤ 16 →
      exec (.rdb idx) State.reset = .next { State.reset with outbox := [.response 0x00000000#32] })
    ∧ exec (.rdsr 0) State.reset = .next { State.reset with outbox := [.response 0x00000001#32] }
    ∧ (∀ a : Byte, a = 1 ∨ a = 2 ∨ a = 3 →
      exec (.rdsr a) State.reset = .next { State.reset with outbox := [.response 0x00000000#32] })
    ∧ exec .dec State.reset
        = .next { State.reset with status := 0x000A#16, outbox := [.response 0x02000000#32] }
    ∧ ∃ t, exec .enc State.reset = .next t ∧ t.outbox = [.response 0x00000000#32]
      ∧ t.byteAt 0 = 0xAB ∧ (∀ k, 1 ≤ k → k ≤ 14 → t.byteAt k = 0) ∧ t.byteAt 15 = 0xAB ∧ t.byteAt 16 = 0xAC

/-- The host's way of placing a row's bits: the very next step runs the instruction the decoder reads from them, and what
the host would have presented next is still there. -/
def Obligations.PlacedRowRunsNext : Prop :=
  ∀ (s : State) (nbits w : Nat) (i : Instr), decodeTableWord nbits w = some i →
    step (s.withFetchWord nbits w) = exec i s

/-- R17, R63, R64 (i), R72, R89: what can bring `BLEN` down. A step after which `BLEN` is smaller than before was a reset
or a BCLR, and `BLEN` is 0, or a successful ENC, and `BLEN` is 17; so below 17 only BCLR and reset bring it. (R72's words
"the only way, other than reset, to bring a `BLEN` above 17 back down" leave ENC out; that ENC writes 17 whatever `BLEN`
was is R17's, R63's and R64's word, which the model follows: DEDUCED, log 16.) -/
def Obligations.OnlyBclrResetEncLowerBlen : Prop :=
  ∀ s t : State, step s = .next t → t.blen.toNat < s.blen.toNat →
    (∃ rest, s.inbox = .reset :: rest ∧ t.blen = 0)
      ∨ (∃ rest, s.inbox = .issue (.command 0x05000000#32) :: rest ∧ t.blen = 0)
      ∨ ∃ rest, s.inbox = .issue (.command 0x06000000#32) :: rest ∧ t.blen = 17 ∧ statusErr t.status = 0
end

