-- ==== Sys2Proof/Laws/State.lean ====
section
/-! SUPPORT. One lemma per field per update of the state, true by rfl, so that no later proof unfolds a record update;
and the readers of the state after an update. -/

namespace Sys2Proof.Machine

variable (s : State)

@[simp] theorem State.setByte_f (k : Nat) (v : Byte) : (s.setByte k v).f = s.f := rfl
@[simp] theorem State.setByte_buf (k : Nat) (v : Byte) : (s.setByte k v).buf = s.buf.write k v := rfl
@[simp] theorem State.setByte_blen (k : Nat) (v : Byte) : (s.setByte k v).blen = s.blen := rfl
@[simp] theorem State.setByte_csum (k : Nat) (v : Byte) : (s.setByte k v).csum = s.csum := rfl
@[simp] theorem State.setByte_ctrl (k : Nat) (v : Byte) : (s.setByte k v).ctrl = s.ctrl := rfl
@[simp] theorem State.setByte_status (k : Nat) (v : Byte) : (s.setByte k v).status = s.status := rfl
@[simp] theorem State.setByte_inbox (k : Nat) (v : Byte) : (s.setByte k v).inbox = s.inbox := rfl
@[simp] theorem State.setByte_outbox (k : Nat) (v : Byte) : (s.setByte k v).outbox = s.outbox := rfl

@[simp] theorem State.setFrame_f (b : List Byte) : (s.setFrame b).f = s.f := rfl
@[simp] theorem State.setFrame_buf (b : List Byte) : (s.setFrame b).buf = s.buf.writeFrom 0 b := rfl
@[simp] theorem State.setFrame_blen (b : List Byte) : (s.setFrame b).blen = s.blen := rfl
@[simp] theorem State.setFrame_csum (b : List Byte) : (s.setFrame b).csum = s.csum := rfl
@[simp] theorem State.setFrame_ctrl (b : List Byte) : (s.setFrame b).ctrl = s.ctrl := rfl
@[simp] theorem State.setFrame_status (b : List Byte) : (s.setFrame b).status = s.status := rfl
@[simp] theorem State.setFrame_inbox (b : List Byte) : (s.setFrame b).inbox = s.inbox := rfl
@[simp] theorem State.setFrame_outbox (b : List Byte) : (s.setFrame b).outbox = s.outbox := rfl

@[simp] theorem State.setField_f (i : Nat) (v : Half) : (s.setField i v).f = s.f.setIfInBounds i v := rfl
@[simp] theorem State.setField_buf (i : Nat) (v : Half) : (s.setField i v).buf = s.buf := rfl
@[simp] theorem State.setField_blen (i : Nat) (v : Half) : (s.setField i v).blen = s.blen := rfl
@[simp] theorem State.setField_csum (i : Nat) (v : Half) : (s.setField i v).csum = s.csum := rfl
@[simp] theorem State.setField_ctrl (i : Nat) (v : Half) : (s.setField i v).ctrl = s.ctrl := rfl
@[simp] theorem State.setField_status (i : Nat) (v : Half) : (s.setField i v).status = s.status := rfl
@[simp] theorem State.setField_inbox (i : Nat) (v : Half) : (s.setField i v).inbox = s.inbox := rfl
@[simp] theorem State.setField_outbox (i : Nat) (v : Half) : (s.setField i v).outbox = s.outbox := rfl

@[simp] theorem State.setFields_f (g : List Byte) : (s.setFields g).f = Vector.ofFn fun k => zext16 (g.getD k.val 0) := rfl
@[simp] theorem State.setFields_buf (g : List Byte) : (s.setFields g).buf = s.buf := rfl
@[simp] theorem State.setFields_blen (g : List Byte) : (s.setFields g).blen = s.blen := rfl
@[simp] theorem State.setFields_csum (g : List Byte) : (s.setFields g).csum = s.csum := rfl
@[simp] theorem State.setFields_ctrl (g : List Byte) : (s.setFields g).ctrl = s.ctrl := rfl
@[simp] theorem State.setFields_status (g : List Byte) : (s.setFields g).status = s.status := rfl
@[simp] theorem State.setFields_inbox (g : List Byte) : (s.setFields g).inbox = s.inbox := rfl
@[simp] theorem State.setFields_outbox (g : List Byte) : (s.setFields g).outbox = s.outbox := rfl

@[simp] theorem State.setBlen_f (v : Byte) : (s.setBlen v).f = s.f := rfl
@[simp] theorem State.setBlen_buf (v : Byte) : (s.setBlen v).buf = s.buf := rfl
@[simp] theorem State.setBlen_blen (v : Byte) : (s.setBlen v).blen = v := rfl
@[simp] theorem State.setBlen_csum (v : Byte) : (s.setBlen v).csum = s.csum := rfl
@[simp] theorem State.setBlen_ctrl (v : Byte) : (s.setBlen v).ctrl = s.ctrl := rfl
@[simp] theorem State.setBlen_status (v : Byte) : (s.setBlen v).status = s.status := rfl
@[simp] theorem State.setBlen_inbox (v : Byte) : (s.setBlen v).inbox = s.inbox := rfl
@[simp] theorem State.setBlen_outbox (v : Byte) : (s.setBlen v).outbox = s.outbox := rfl

@[simp] theorem State.setCsum_f (v : Byte) : (s.setCsum v).f = s.f := rfl
@[simp] theorem State.setCsum_buf (v : Byte) : (s.setCsum v).buf = s.buf := rfl
@[simp] theorem State.setCsum_blen (v : Byte) : (s.setCsum v).blen = s.blen := rfl
@[simp] theorem State.setCsum_csum (v : Byte) : (s.setCsum v).csum = v := rfl
@[simp] theorem State.setCsum_ctrl (v : Byte) : (s.setCsum v).ctrl = s.ctrl := rfl
@[simp] theorem State.setCsum_status (v : Byte) : (s.setCsum v).status = s.status := rfl
@[simp] theorem State.setCsum_inbox (v : Byte) : (s.setCsum v).inbox = s.inbox := rfl
@[simp] theorem State.setCsum_outbox (v : Byte) : (s.setCsum v).outbox = s.outbox := rfl

@[simp] theorem State.setStatus_f (w : Half) : (s.setStatus w).f = s.f := rfl
@[simp] theorem State.setStatus_buf (w : Half) : (s.setStatus w).buf = s.buf := rfl
@[simp] theorem State.setStatus_blen (w : Half) : (s.setStatus w).blen = s.blen := rfl
@[simp] theorem State.setStatus_csum (w : Half) : (s.setStatus w).csum = s.csum := rfl
@[simp] theorem State.setStatus_ctrl (w : Half) : (s.setStatus w).ctrl = s.ctrl := rfl
@[simp] theorem State.setStatus_status (w : Half) : (s.setStatus w).status = w := rfl
@[simp] theorem State.setStatus_inbox (w : Half) : (s.setStatus w).inbox = s.inbox := rfl
@[simp] theorem State.setStatus_outbox (w : Half) : (s.setStatus w).outbox = s.outbox := rfl

@[simp] theorem State.writeCtrl_f (v : Half) : (s.writeCtrl v).f = s.f := rfl
@[simp] theorem State.writeCtrl_buf (v : Half) : (s.writeCtrl v).buf = s.buf := rfl
@[simp] theorem State.writeCtrl_blen (v : Half) : (s.writeCtrl v).blen = s.blen := rfl
@[simp] theorem State.writeCtrl_csum (v : Half) : (s.writeCtrl v).csum = s.csum := rfl
@[simp] theorem State.writeCtrl_ctrl (v : Half) : (s.writeCtrl v).ctrl = ctrlOfWrite v := rfl
@[simp] theorem State.writeCtrl_status (v : Half) : (s.writeCtrl v).status = s.status := rfl
@[simp] theorem State.writeCtrl_inbox (v : Half) : (s.writeCtrl v).inbox = s.inbox := rfl
@[simp] theorem State.writeCtrl_outbox (v : Half) : (s.writeCtrl v).outbox = s.outbox := rfl

@[simp] theorem State.deliver_f (a : Answer) : (s.deliver a).f = s.f := rfl
@[simp] theorem State.deliver_buf (a : Answer) : (s.deliver a).buf = s.buf := rfl
@[simp] theorem State.deliver_blen (a : Answer) : (s.deliver a).blen = s.blen := rfl
@[simp] theorem State.deliver_csum (a : Answer) : (s.deliver a).csum = s.csum := rfl
@[simp] theorem State.deliver_ctrl (a : Answer) : (s.deliver a).ctrl = s.ctrl := rfl
@[simp] theorem State.deliver_status (a : Answer) : (s.deliver a).status = s.status := rfl
@[simp] theorem State.deliver_inbox (a : Answer) : (s.deliver a).inbox = s.inbox := rfl
@[simp] theorem State.deliver_outbox (a : Answer) : (s.deliver a).outbox = s.outbox ++ [a] := rfl

@[simp] theorem State.respond_f (v : Half) : (s.respond v).f = s.f := rfl
@[simp] theorem State.respond_buf (v : Half) : (s.respond v).buf = s.buf := rfl
@[simp] theorem State.respond_blen (v : Half) : (s.respond v).blen = s.blen := rfl
@[simp] theorem State.respond_csum (v : Half) : (s.respond v).csum = s.csum := rfl
@[simp] theorem State.respond_ctrl (v : Half) : (s.respond v).ctrl = s.ctrl := rfl
@[simp] theorem State.respond_status (v : Half) : (s.respond v).status = s.status := rfl
@[simp] theorem State.respond_inbox (v : Half) : (s.respond v).inbox = s.inbox := rfl
@[simp] theorem State.respond_outbox (v : Half) : (s.respond v).outbox = s.outbox ++ [.response (responseWord 0 v)] := rfl

@[simp] theorem State.raise_f (e : CodecError) : (s.raise e).f = s.f := rfl
@[simp] theorem State.raise_buf (e : CodecError) : (s.raise e).buf = s.buf := rfl
@[simp] theorem State.raise_blen (e : CodecError) : (s.raise e).blen = s.blen := rfl
@[simp] theorem State.raise_csum (e : CodecError) : (s.raise e).csum = s.csum := rfl
@[simp] theorem State.raise_ctrl (e : CodecError) : (s.raise e).ctrl = s.ctrl := rfl
@[simp] theorem State.raise_status (e : CodecError) : (s.raise e).status = s.status := rfl
@[simp] theorem State.raise_inbox (e : CodecError) : (s.raise e).inbox = s.inbox := rfl
@[simp] theorem State.raise_outbox (e : CodecError) : (s.raise e).outbox = s.outbox ++ [.response (responseWord e.code 0)] := rfl

@[simp] theorem State.raiseIllegal_f : s.raiseIllegal.f = s.f := rfl
@[simp] theorem State.raiseIllegal_buf : s.raiseIllegal.buf = s.buf := rfl
@[simp] theorem State.raiseIllegal_blen : s.raiseIllegal.blen = s.blen := rfl
@[simp] theorem State.raiseIllegal_csum : s.raiseIllegal.csum = s.csum := rfl
@[simp] theorem State.raiseIllegal_ctrl : s.raiseIllegal.ctrl = s.ctrl := rfl
@[simp] theorem State.raiseIllegal_status : s.raiseIllegal.status = s.status := rfl
@[simp] theorem State.raiseIllegal_inbox : s.raiseIllegal.inbox = s.inbox := rfl
@[simp] theorem State.raiseIllegal_outbox : s.raiseIllegal.outbox = s.outbox ++ [.response (responseWord 3 0)] := rfl

@[simp] theorem State.resetBlock_f : s.resetBlock.f = Vector.replicate 15 0 := rfl
@[simp] theorem State.resetBlock_buf : s.resetBlock.buf = [] := rfl
@[simp] theorem State.resetBlock_blen : s.resetBlock.blen = 0 := rfl
@[simp] theorem State.resetBlock_csum : s.resetBlock.csum = 0 := rfl
@[simp] theorem State.resetBlock_ctrl : s.resetBlock.ctrl = 1 := rfl
@[simp] theorem State.resetBlock_status : s.resetBlock.status = 0 := rfl
@[simp] theorem State.resetBlock_inbox : s.resetBlock.inbox = s.inbox := rfl
@[simp] theorem State.resetBlock_outbox : s.resetBlock.outbox = s.outbox := rfl

@[simp] theorem State.takeEvent_f : s.takeEvent.f = s.f := rfl
@[simp] theorem State.takeEvent_buf : s.takeEvent.buf = s.buf := rfl
@[simp] theorem State.takeEvent_blen : s.takeEvent.blen = s.blen := rfl
@[simp] theorem State.takeEvent_csum : s.takeEvent.csum = s.csum := rfl
@[simp] theorem State.takeEvent_ctrl : s.takeEvent.ctrl = s.ctrl := rfl
@[simp] theorem State.takeEvent_status : s.takeEvent.status = s.status := rfl
@[simp] theorem State.takeEvent_inbox : s.takeEvent.inbox = s.inbox.tail := rfl
@[simp] theorem State.takeEvent_outbox : s.takeEvent.outbox = s.outbox := rfl

/-! ### What a reader sees after an update that does not touch what it reads -/

@[simp] theorem State.setByte_field (k : Nat) (v : Byte) (j : Nat) : (s.setByte k v).field j = s.field j := rfl
@[simp] theorem State.setByte_operands (k : Nat) (v : Byte) : (s.setByte k v).operands = s.operands := rfl
@[simp] theorem State.setByte_strict (k : Nat) (v : Byte) : (s.setByte k v).strict = s.strict := rfl
@[simp] theorem State.setFrame_field (b : List Byte) (j : Nat) : (s.setFrame b).field j = s.field j := rfl
@[simp] theorem State.setFrame_operands (b : List Byte) : (s.setFrame b).operands = s.operands := rfl
@[simp] theorem State.setFrame_strict (b : List Byte) : (s.setFrame b).strict = s.strict := rfl
@[simp] theorem State.setField_byteAt (i : Nat) (v : Half) (j : Nat) : (s.setField i v).byteAt j = s.byteAt j := rfl
@[simp] theorem State.setField_frame (i : Nat) (v : Half) : (s.setField i v).frame = s.frame := rfl
@[simp] theorem State.setField_strict (i : Nat) (v : Half) : (s.setField i v).strict = s.strict := rfl
@[simp] theorem State.setFields_byteAt (g : List Byte) (j : Nat) : (s.setFields g).byteAt j = s.byteAt j := rfl
@[simp] theorem State.setFields_frame (g : List Byte) : (s.setFields g).frame = s.frame := rfl
@[simp] theorem State.setFields_strict (g : List Byte) : (s.setFields g).strict = s.strict := rfl
@[simp] theorem State.setBlen_field (v : Byte) (j : Nat) : (s.setBlen v).field j = s.field j := rfl
@[simp] theorem State.setBlen_operands (v : Byte) : (s.setBlen v).operands = s.operands := rfl
@[simp] theorem State.setBlen_byteAt (v : Byte) (j : Nat) : (s.setBlen v).byteAt j = s.byteAt j := rfl
@[simp] theorem State.setBlen_frame (v : Byte) : (s.setBlen v).frame = s.frame := rfl
@[simp] theorem State.setBlen_strict (v : Byte) : (s.setBlen v).strict = s.strict := rfl
@[simp] theorem State.setCsum_field (v : Byte) (j : Nat) : (s.setCsum v).field j = s.field j := rfl
@[simp] theorem State.setCsum_operands (v : Byte) : (s.setCsum v).operands = s.operands := rfl
@[simp] theorem State.setCsum_byteAt (v : Byte) (j : Nat) : (s.setCsum v).byteAt j = s.byteAt j := rfl
@[simp] theorem State.setCsum_frame (v : Byte) : (s.setCsum v).frame = s.frame := rfl
@[simp] theorem State.setCsum_strict (v : Byte) : (s.setCsum v).strict = s.strict := rfl
@[simp] theorem State.setStatus_field (w : Half) (j : Nat) : (s.setStatus w).field j = s.field j := rfl
@[simp] theorem State.setStatus_operands (w : Half) : (s.setStatus w).operands = s.operands := rfl
@[simp] theorem State.setStatus_byteAt (w : Half) (j : Nat) : (s.setStatus w).byteAt j = s.byteAt j := rfl
@[simp] theorem State.setStatus_frame (w : Half) : (s.setStatus w).frame = s.frame := rfl
@[simp] theorem State.setStatus_strict (w : Half) : (s.setStatus w).strict = s.strict := rfl
@[simp] theorem State.writeCtrl_field (v : Half) (j : Nat) : (s.writeCtrl v).field j = s.field j := rfl
@[simp] theorem State.writeCtrl_operands (v : Half) : (s.writeCtrl v).operands = s.operands := rfl
@[simp] theorem State.writeCtrl_byteAt (v : Half) (j : Nat) : (s.writeCtrl v).byteAt j = s.byteAt j := rfl
@[simp] theorem State.writeCtrl_frame (v : Half) : (s.writeCtrl v).frame = s.frame := rfl
@[simp] theorem State.deliver_field (a : Answer) (j : Nat) : (s.deliver a).field j = s.field j := rfl
@[simp] theorem State.deliver_operands (a : Answer) : (s.deliver a).operands = s.operands := rfl
@[simp] theorem State.deliver_byteAt (a : Answer) (j : Nat) : (s.deliver a).byteAt j = s.byteAt j := rfl
@[simp] theorem State.deliver_frame (a : Answer) : (s.deliver a).frame = s.frame := rfl
@[simp] theorem State.deliver_strict (a : Answer) : (s.deliver a).strict = s.strict := rfl
@[simp] theorem State.respond_field (v : Half) (j : Nat) : (s.respond v).field j = s.field j := rfl
@[simp] theorem State.respond_operands (v : Half) : (s.respond v).operands = s.operands := rfl
@[simp] theorem State.respond_byteAt (v : Half) (j : Nat) : (s.respond v).byteAt j = s.byteAt j := rfl
@[simp] theorem State.respond_frame (v : Half) : (s.respond v).frame = s.frame := rfl
@[simp] theorem State.respond_strict (v : Half) : (s.respond v).strict = s.strict := rfl
@[simp] theorem State.raise_field (e : CodecError) (j : Nat) : (s.raise e).field j = s.field j := rfl
@[simp] theorem State.raise_operands (e : CodecError) : (s.raise e).operands = s.operands := rfl
@[simp] theorem State.raise_byteAt (e : CodecError) (j : Nat) : (s.raise e).byteAt j = s.byteAt j := rfl
@[simp] theorem State.raise_frame (e : CodecError) : (s.raise e).frame = s.frame := rfl
@[simp] theorem State.raise_strict (e : CodecError) : (s.raise e).strict = s.strict := rfl
@[simp] theorem State.raiseIllegal_field (j : Nat) : s.raiseIllegal.field j = s.field j := rfl
@[simp] theorem State.raiseIllegal_operands : s.raiseIllegal.operands = s.operands := rfl
@[simp] theorem State.raiseIllegal_byteAt (j : Nat) : s.raiseIllegal.byteAt j = s.byteAt j := rfl
@[simp] theorem State.raiseIllegal_frame : s.raiseIllegal.frame = s.frame := rfl
@[simp] theorem State.raiseIllegal_strict : s.raiseIllegal.strict = s.strict := rfl
@[simp] theorem State.takeEvent_field (j : Nat) : s.takeEvent.field j = s.field j := rfl
@[simp] theorem State.takeEvent_operands : s.takeEvent.operands = s.operands := rfl
@[simp] theorem State.takeEvent_byteAt (j : Nat) : s.takeEvent.byteAt j = s.byteAt j := rfl
@[simp] theorem State.takeEvent_frame : s.takeEvent.frame = s.frame := rfl
@[simp] theorem State.takeEvent_strict : s.takeEvent.strict = s.strict := rfl

/-! ### Readers -/

/-- A reader of the buffer sees only the buffer. -/
theorem State.byteAt_of_buf {s t : State} (h : t.buf = s.buf) (k : Nat) : t.byteAt k = s.byteAt k := by
  simp [State.byteAt, h]

theorem State.field_of_f {s t : State} (h : t.f = s.f) (i : Nat) : t.field i = s.field i := by
  simp [State.field, h]

theorem State.operands_of_f {s t : State} (h : t.f = s.f) : t.operands = s.operands := by
  simp [State.operands, h]

/-- A register written reads back, and no other register moves (R10, R68). -/
theorem State.setField_field (i k : Nat) (v : Half) (hi : i ≤ 14) :
    (s.setField i v).field k = if k = i then v else s.field k := by
  have h15 : i < 15 := by omega
  by_cases h : k = i
  · subst h
    simp [State.field, h15]
  · have h' : ¬ i = k := fun e => h e.symm
    simp [State.field, h, h']

/-- After `setFields` register `k` holds the zero-extended byte `k` (R29, R65). -/
theorem State.setFields_field (g : List Byte) (k : Nat) (hk : k ≤ 14) :
    (s.setFields g).field k = zext16 (g.getD k 0) := by
  have h15 : k < 15 := by omega
  simp [State.field, h15]

/-- The operand list of ENC has the fourteen values `F[1]` to `F[14]` (R12, R63). -/
theorem State.operands_length : s.operands.length = 14 := by
  simp [State.operands]

theorem State.operands_getD (j : Nat) (hj : j < 14) : s.operands.getD j 0 = s.field (j + 1) := by
  have h : j + 1 < 15 := by omega
  simp [State.operands, State.field, List.getD, h]

end Sys2Proof.Machine
end

