-- ==== Sys2Proof/Laws/Memory.lean ====
section
/-! SUPPORT. The laws of the frame buffer: what a read sees after a write, and that every operation keeps the
canonical form. -/

namespace Sys2Proof.Machine

@[simp] theorem Memory.read_nil (a : Nat) : Memory.read [] a = 0 := rfl

theorem Memory.read_cons (k : Nat) (v : Byte) (m : Memory) (a : Nat) :
    Memory.read ((k, v) :: m) a = if k = a then v else Memory.read m a := rfl

/-- An offset below the first listed one reads as the reset byte. -/
theorem Memory.read_below {lo : Nat} {m : Memory} (h : Memory.wfFrom lo m = true) {a : Nat} (ha : a < lo) :
    Memory.read m a = 0 := by
  induction m generalizing lo with
  | nil => rfl
  | cons c rest ih =>
    obtain ⟨k, v⟩ := c
    simp only [Memory.wfFrom, Bool.and_eq_true, decide_eq_true_eq] at h
    obtain ⟨⟨⟨hk, -⟩, -⟩, hr⟩ := h
    rw [Memory.read_cons, if_neg (by omega), ih hr (by omega)]

/-- No offset above 16 is listed. -/
theorem Memory.read_above {lo : Nat} {m : Memory} (h : Memory.wfFrom lo m = true) {a : Nat} (ha : 17 ≤ a) :
    Memory.read m a = 0 := by
  induction m generalizing lo with
  | nil => rfl
  | cons c rest ih =>
    obtain ⟨k, v⟩ := c
    simp only [Memory.wfFrom, Bool.and_eq_true, decide_eq_true_eq] at h
    obtain ⟨⟨⟨-, hk⟩, -⟩, hr⟩ := h
    rw [Memory.read_cons, if_neg (by omega), ih hr]

theorem Memory.wfFrom_mono {lo lo' : Nat} {m : Memory} (h : Memory.wfFrom lo m = true) (hl : lo' ≤ lo) :
    Memory.wfFrom lo' m = true := by
  cases m with
  | nil => rfl
  | cons c rest =>
    obtain ⟨k, v⟩ := c
    simp only [Memory.wfFrom, Bool.and_eq_true, decide_eq_true_eq] at h ⊢
    exact ⟨⟨⟨by omega, h.1.1.2⟩, h.1.2⟩, h.2⟩

/-- A write reads back and leaves every other offset alone (on a buffer in canonical form). -/
theorem Memory.read_write {lo : Nat} {m : Memory} (h : Memory.wfFrom lo m = true) (a : Nat) (v : Byte) (b : Nat) :
    Memory.read (Memory.write m a v) b = if b = a then v else Memory.read m b := by
  induction m generalizing lo with
  | nil =>
    by_cases hv : v = Memory.resetByte
    · subst hv
      by_cases hb : b = a <;> simp [Memory.write, hb, Memory.resetByte]
    · by_cases hb : b = a
      · simp [Memory.write, hv, hb, Memory.read_cons]
      · have hb' : ¬ a = b := fun e => hb e.symm
        simp [Memory.write, hv, hb, hb', Memory.read_cons]
  | cons c rest ih =>
    obtain ⟨k, x⟩ := c
    have hw := h
    simp only [Memory.wfFrom, Bool.and_eq_true, decide_eq_true_eq] at h
    obtain ⟨⟨⟨-, -⟩, -⟩, hr⟩ := h
    unfold Memory.write
    split
    next hlt =>
      split
      next hv =>
        by_cases hb : b = a
        · subst hb
          rw [if_pos rfl, Memory.read_cons, if_neg (by omega), hv,
            Memory.read_below hr (by omega)]
          rfl
        · rw [if_neg hb]
      next =>
        by_cases hb : b = a
        · rw [if_pos hb, Memory.read_cons, if_pos hb.symm]
        · rw [if_neg hb, Memory.read_cons, if_neg (fun e => hb e.symm)]
    next hge =>
      split
      next hak =>
        subst hak
        split
        next hv =>
          by_cases hb : b = a
          · subst hb
            rw [if_pos rfl, Memory.read_below hr (by omega), hv]
            rfl
          · rw [if_neg hb, Memory.read_cons, if_neg (fun e => hb e.symm)]
        next =>
          by_cases hb : b = a
          · rw [if_pos hb, Memory.read_cons, if_pos hb.symm]
          · rw [if_neg hb, Memory.read_cons, if_neg (fun e => hb e.symm), Memory.read_cons,
              if_neg (fun e => hb e.symm)]
      next hne =>
        rw [Memory.read_cons, Memory.read_cons, ih hr]
        by_cases hb : b = a
        · rw [if_pos hb, if_neg (by omega), if_pos hb]
        · rw [if_neg hb, if_neg hb]

/-- A write at an offset of the buffer keeps the canonical form. -/
theorem Memory.write_wfFrom {lo : Nat} {m : Memory} (h : Memory.wfFrom lo m = true) {a : Nat} (hlo : lo ≤ a)
    (ha : a ≤ 16) (v : Byte) : Memory.wfFrom lo (Memory.write m a v) = true := by
  induction m generalizing lo with
  | nil =>
    unfold Memory.write
    split
    next => rfl
    next hv =>
      simp only [Memory.wfFrom, Bool.and_eq_true, decide_eq_true_eq, bne_iff_ne]
      exact ⟨⟨⟨hlo, by omega⟩, hv⟩, trivial⟩
  | cons c rest ih =>
    obtain ⟨k, x⟩ := c
    have hw := h
    simp only [Memory.wfFrom, Bool.and_eq_true, decide_eq_true_eq, bne_iff_ne] at h
    obtain ⟨⟨⟨hk, hk'⟩, hx⟩, hr⟩ := h
    unfold Memory.write
    split
    next hlt =>
      split
      next => exact hw
      next hv =>
        simp only [Memory.wfFrom, Bool.and_eq_true, decide_eq_true_eq, bne_iff_ne]
        exact ⟨⟨⟨hlo, by omega⟩, hv⟩, ⟨⟨by omega, hk'⟩, hx⟩, hr⟩
    next hge =>
      split
      next hak =>
        split
        next => exact Memory.wfFrom_mono hr (by omega)
        next hv =>
          simp only [Memory.wfFrom, Bool.and_eq_true, decide_eq_true_eq, bne_iff_ne]
          subst hak
          exact ⟨⟨⟨hlo, by omega⟩, hv⟩, hr⟩
      next hne =>
        simp only [Memory.wfFrom, Bool.and_eq_true, decide_eq_true_eq, bne_iff_ne]
        exact ⟨⟨⟨hk, hk'⟩, hx⟩, ih hr (by omega)⟩

theorem Memory.write_wf {m : Memory} (h : m.wf = true) {a : Nat} (ha : a ≤ 16) (v : Byte) :
    (Memory.write m a v).wf = true :=
  Memory.write_wfFrom h (Nat.zero_le a) ha v

/-- A run of bytes that stays inside the buffer keeps the canonical form. -/
theorem Memory.writeFrom_wf {m : Memory} (h : m.wf = true) (a : Nat) (bs : List Byte) (hb : a + bs.length ≤ 17) :
    (Memory.writeFrom m a bs).wf = true := by
  induction bs generalizing m a with
  | nil => exact h
  | cons b bs ih =>
    simp only [List.length_cons] at hb
    exact ih (Memory.write_wf h (by omega) b) (a + 1) (by omega)

/-- What a read sees after a run of bytes written from offset `a` on. -/
theorem Memory.read_writeFrom {m : Memory} (h : m.wf = true) (a : Nat) (bs : List Byte)
    (hb : a + bs.length ≤ 17) (k : Nat) :
    Memory.read (Memory.writeFrom m a bs) k
      = if a ≤ k ∧ k < a + bs.length then bs.getD (k - a) 0 else Memory.read m k := by
  induction bs generalizing m a with
  | nil => simp [Memory.writeFrom]
  | cons b bs ih =>
    simp only [List.length_cons] at hb
    rw [Memory.writeFrom, ih (Memory.write_wf h (by omega) b) (a + 1) (by omega), Memory.read_write h]
    simp only [List.length_cons]
    by_cases hk : k = a
    · subst hk
      rw [if_neg (by omega), if_pos rfl, if_pos (by omega)]
      simp
    · by_cases hin : a + 1 ≤ k ∧ k < a + 1 + bs.length
      · rw [if_pos hin, if_pos (by omega)]
        obtain ⟨j, rfl⟩ : ∃ j, k = a + 1 + j := ⟨k - (a + 1), by omega⟩
        rw [show a + 1 + j - a = j + 1 from by omega, show a + 1 + j - (a + 1) = j from by omega]
        simp
      · rw [if_neg hin, if_neg hk, if_neg (by omega)]

@[simp] theorem Memory.readFrom_length (m : Memory) (a n : Nat) : (m.readFrom a n).length = n := by
  induction n generalizing a with
  | zero => rfl
  | succ n ih => simp [Memory.readFrom, ih]

theorem Memory.readFrom_getD (m : Memory) (a n j : Nat) (hj : j < n) :
    (m.readFrom a n).getD j 0 = Memory.read m (a + j) := by
  induction n generalizing a j with
  | zero => omega
  | succ n ih =>
    cases j with
    | zero => simp [Memory.readFrom]
    | succ j =>
      rw [Memory.readFrom, List.getD_cons_succ, ih (a + 1) j (by omega)]
      congr 1
      omega

/-- Two buffers in canonical form that read the same everywhere are the same list. -/
theorem Memory.ext_of_read {lo : Nat} {m n : Memory} (hm : Memory.wfFrom lo m = true)
    (hn : Memory.wfFrom lo n = true) (h : ∀ a, Memory.read m a = Memory.read n a) : m = n := by
  induction m generalizing lo n with
  | nil =>
    cases n with
    | nil => rfl
    | cons c rest =>
      obtain ⟨k, v⟩ := c
      simp only [Memory.wfFrom, Bool.and_eq_true, bne_iff_ne] at hn
      have := h k
      simp [Memory.read_cons] at this
      exact absurd this.symm hn.1.2
  | cons c m ih =>
    obtain ⟨k, v⟩ := c
    cases n with
    | nil =>
      simp only [Memory.wfFrom, Bool.and_eq_true, bne_iff_ne] at hm
      have := h k
      simp [Memory.read_cons] at this
      exact absurd this hm.1.2
    | cons d n =>
      obtain ⟨l, w⟩ := d
      simp only [Memory.wfFrom, Bool.and_eq_true, bne_iff_ne] at hm hn
      have hk := h k
      have hl := h l
      rw [Memory.read_cons, Memory.read_cons, if_pos rfl] at hk
      rw [Memory.read_cons, Memory.read_cons, if_pos rfl] at hl
      have hkl : k = l := by
        rcases Nat.lt_trichotomy k l with hlt | heq | hgt
        · rw [if_neg (by omega), Memory.read_below hn.2 (by omega)] at hk
          exact absurd hk hm.1.2
        · exact heq
        · rw [if_neg (by omega), Memory.read_below hm.2 (by omega)] at hl
          exact absurd hl.symm hn.1.2
      subst hkl
      rw [if_pos rfl] at hk
      subst hk
      have : m = n := by
        refine ih hm.2 hn.2 fun a => ?_
        have ha := h a
        rw [Memory.read_cons, Memory.read_cons] at ha
        by_cases hka : k = a
        · subst hka
          rw [Memory.read_below hm.2 (by omega), Memory.read_below hn.2 (by omega)]
        · rwa [if_neg hka, if_neg hka] at ha
      rw [this]

end Sys2Proof.Machine
end

