-- ==== Sys2Proof/Laws/Words.lean ====
section
/-! SUPPORT. The fields of command words, response words, `STATUS` and `CTRL`: a field put in is the field read out. -/

namespace Sys2Proof

theorem opField_toNat (w : CmdWord) : (opField w).toNat = w.toNat / 2 ^ 24 := by
  have := w.isLt
  simp only [opField, BitVec.extractLsb'_toNat, Nat.shiftRight_eq_div_pow]
  omega

theorem idxField_toNat (w : CmdWord) : (idxField w).toNat = w.toNat / 2 ^ 16 % 256 := by
  simp only [idxField, BitVec.extractLsb'_toNat, Nat.shiftRight_eq_div_pow]

theorem immField_toNat (w : CmdWord) : (immField w).toNat = w.toNat % 65536 := by
  simp only [immField, BitVec.extractLsb'_toNat, Nat.shiftRight_eq_div_pow]
  omega

theorem commandWord_toNat (op idx : Byte) (imm : Half) :
    (commandWord op idx imm).toNat = op.toNat * 2 ^ 24 + idx.toNat * 2 ^ 16 + imm.toNat := by
  have := op.isLt; have := idx.isLt; have := imm.isLt
  simp only [commandWord, BitVec.toNat_ofNat]
  omega

@[simp] theorem opField_commandWord (op idx : Byte) (imm : Half) : opField (commandWord op idx imm) = op := by
  apply BitVec.eq_of_toNat_eq
  have := op.isLt; have := idx.isLt; have := imm.isLt
  rw [opField_toNat, commandWord_toNat]
  omega

@[simp] theorem idxField_commandWord (op idx : Byte) (imm : Half) : idxField (commandWord op idx imm) = idx := by
  apply BitVec.eq_of_toNat_eq
  have := op.isLt; have := idx.isLt; have := imm.isLt
  rw [idxField_toNat, commandWord_toNat]
  omega

@[simp] theorem immField_commandWord (op idx : Byte) (imm : Half) : immField (commandWord op idx imm) = imm := by
  apply BitVec.eq_of_toNat_eq
  have := op.isLt; have := idx.isLt; have := imm.isLt
  rw [immField_toNat, commandWord_toNat]
  omega

/-- A command word is its three fields (R49). -/
@[simp] theorem commandWord_fields (w : CmdWord) : commandWord (opField w) (idxField w) (immField w) = w := by
  apply BitVec.eq_of_toNat_eq
  have := w.isLt
  rw [commandWord_toNat, opField_toNat, idxField_toNat, immField_toNat]
  omega

namespace Machine

@[simp] theorem zext16_toNat (b : Byte) : (zext16 b).toNat = b.toNat := by
  have := b.isLt
  simp only [zext16, BitVec.toNat_setWidth]
  omega

@[simp] theorem lowByte_zext16 (b : Byte) : lowByte (zext16 b) = b := by
  apply BitVec.eq_of_toNat_eq
  have := b.isLt
  simp only [lowByte, BitVec.toNat_setWidth, zext16_toNat]
  omega

theorem lowByte_toNat {v : Half} (h : v.toNat ≤ 255) : (lowByte v).toNat = v.toNat := by
  simp only [lowByte, BitVec.toNat_setWidth]
  omega

theorem zext16_lowByte {v : Half} (h : v.toNat ≤ 255) : zext16 (lowByte v) = v := by
  apply BitVec.eq_of_toNat_eq
  rw [zext16_toNat, lowByte_toNat h]

/-- `imm[15:8]` is 0 exactly when the value fits a byte (R50, R53). -/
theorem highByte_zero_iff (v : Half) : v.extractLsb' 8 8 = 0 ↔ v.toNat ≤ 255 := by
  have := v.isLt
  rw [← BitVec.toNat_inj]
  simp only [BitVec.extractLsb'_toNat, Nat.shiftRight_eq_div_pow, BitVec.ofNat_eq_ofNat, BitVec.toNat_ofNat]
  omega

theorem responseWord_toNat (code : Byte) (data : Half) :
    (responseWord code data).toNat = code.toNat * 2 ^ 24 + data.toNat := by
  have := code.isLt; have := data.isLt
  simp only [responseWord, BitVec.toNat_ofNat]
  omega

@[simp] theorem responseWord_code (code : Byte) (data : Half) :
    (responseWord code data).extractLsb' 24 8 = code := by
  apply BitVec.eq_of_toNat_eq
  have h := opField_toNat (responseWord code data)
  have := code.isLt; have := data.isLt
  rw [responseWord_toNat] at h
  exact h.trans (by omega)

@[simp] theorem responseWord_zero (code : Byte) (data : Half) : (responseWord code data).extractLsb' 16 8 = 0 := by
  apply BitVec.eq_of_toNat_eq
  have h := idxField_toNat (responseWord code data)
  have := code.isLt; have := data.isLt
  rw [responseWord_toNat] at h
  exact h.trans (by simp; omega)

@[simp] theorem responseWord_data (code : Byte) (data : Half) : (responseWord code data).extractLsb' 0 16 = data := by
  apply BitVec.eq_of_toNat_eq
  have h := immField_toNat (responseWord code data)
  have := code.isLt; have := data.isLt
  rw [responseWord_toNat] at h
  exact h.trans (by omega)

/-- The response of an operation that returns no value (R51). -/
@[simp] theorem responseWord_return : responseWord 0#8 0#16 = 0x00000000#32 := by decide

/-- The response of EncodeRangeError (R51, R75). -/
@[simp] theorem responseWord_encodeRange : responseWord 1#8 0#16 = 0x01000000#32 := by decide

/-- The response of MalformedFrame (R51, R75). -/
@[simp] theorem responseWord_malformed : responseWord 2#8 0#16 = 0x02000000#32 := by decide

/-- The response of IllegalOperation (R51, R75). -/
@[simp] theorem responseWord_illegal : responseWord 3#8 0#16 = 0x03000000#32 := by decide

/-- The answer of a read is its value, zero-extended to 32 bits (R51). -/
theorem responseWord_ok (v : Half) : responseWord 0#8 v = v.setWidth 32 := by
  apply BitVec.eq_of_toNat_eq
  have := v.isLt
  simp only [responseWord_toNat, BitVec.toNat_setWidth, BitVec.toNat_ofNat]
  omega

/-- The answer of a byte read is the byte, zero-extended to 32 bits (R51, R71, R73). -/
theorem responseWord_zext (b : Byte) : responseWord 0#8 (zext16 b) = b.setWidth 32 := by
  apply BitVec.eq_of_toNat_eq
  have := b.isLt
  simp only [responseWord_toNat, zext16_toNat, BitVec.toNat_setWidth, BitVec.toNat_ofNat]
  omega

/-- `STATUS` as a number (R19). -/
theorem statusWord_toNat (last err : BitVec 2) (lenOk crcOk : Bool) (eidx : BitVec 4) :
    (statusWord last err lenOk crcOk eidx).toNat
      = last.toNat + err.toNat * 2 ^ 2 + lenOk.toNat * 2 ^ 4 + crcOk.toNat * 2 ^ 5 + eidx.toNat * 2 ^ 6 := by
  have := last.isLt; have := err.isLt; have := eidx.isLt
  have := Bool.toNat_le lenOk; have := Bool.toNat_le crcOk
  simp only [statusWord, BitVec.toNat_ofNat]
  omega

/-- `STATUS` after an ENC that succeeded (R63). -/
@[simp] theorem statusWord_encOk : statusWord lastEnc errNone false false 0#4 = 0x0001#16 := by decide

/-- `STATUS` after an ENC that failed at offset `k` (R63, R76). -/
theorem statusWord_encBad {k : Nat} (hk : k ≤ 14) :
    statusWord lastEnc errEncodeRange false false (BitVec.ofNat 4 k) = BitVec.ofNat 16 (64 * k + 5) := by
  apply BitVec.eq_of_toNat_eq
  simp only [statusWord_toNat, lastEnc, errEncodeRange, BitVec.toNat_ofNat, Bool.toNat_false, BitVec.ofNat_eq_ofNat]
  omega

/-- `STATUS` after a DEC that failed by length (R65, R77). -/
@[simp] theorem statusWord_decLength : statusWord lastDec errMalformed false false 0#4 = 0x000A#16 := by decide

/-- `STATUS` after a DEC that failed by checksum (R65, R78). -/
@[simp] theorem statusWord_decChecksum : statusWord lastDec errMalformed true false 0#4 = 0x001A#16 := by decide

/-- `STATUS` after a DEC that succeeded on a match (R65). -/
@[simp] theorem statusWord_decMatch : statusWord lastDec errNone true true 0#4 = 0x0032#16 := by decide

/-- `STATUS` after a DEC that tolerated a mismatch (R65, R66). -/
@[simp] theorem statusWord_decMismatch : statusWord lastDec errNone true false 0#4 = 0x0012#16 := by decide

theorem ctrlOfWrite_toNat (v : Half) : (ctrlOfWrite v).toNat = v.toNat % 2 := by
  simp only [ctrlOfWrite, BitVec.toNat_setWidth, BitVec.extractLsb'_toNat, Nat.shiftRight_eq_div_pow]
  omega

@[simp] theorem ctrlOfWrite_strict (v : Half) : ctrlStrict (ctrlOfWrite v) = v.getLsbD 0 := by
  simp [ctrlStrict, ctrlOfWrite]

@[simp] theorem ctrlOfWrite_reserved (v : Half) : ctrlReserved (ctrlOfWrite v) = 0 := by
  apply BitVec.eq_of_toNat_eq
  simp only [ctrlReserved, BitVec.extractLsb'_toNat, Nat.shiftRight_eq_div_pow, ctrlOfWrite_toNat,
    BitVec.ofNat_eq_ofNat, BitVec.toNat_ofNat]
  omega

end Machine

end Sys2Proof
end

