-- ==== Sys2Proof/Laws/Codec.lean ====
section
/-! SUPPORT. The pure functions: what FieldOk, the search for the first bad field, Encode and Decode answer, each said
once. -/

namespace Sys2Proof.Machine

/-- A field that passes fits a byte (R59). -/
theorem fieldOk_le {k : Nat} {v : Half} (h : fieldOk k v = true) : v.toNat ≤ 255 := by
  simp only [fieldOk, Bool.and_eq_true, decide_eq_true_eq] at h
  exact h.1.1.1

/-- No field is bad exactly when every one passes (R58). -/
theorem firstBad_none {k : Nat} {vs : List Half} :
    firstBad k vs = none ↔ ∀ j, j < vs.length → fieldOk (k + j) (vs.getD j 0) = true := by
  induction vs generalizing k with
  | nil => simp [firstBad]
  | cons v vs ih =>
    unfold firstBad
    constructor
    · intro h j hj
      split at h
      next hv =>
        cases j with
        | zero => simpa using hv
        | succ j =>
          have := ih.1 h j (by simpa using hj)
          rw [List.getD_cons_succ, show k + (j + 1) = k + 1 + j by omega]
          exact this
      next => cases h
    · intro h
      have hv : fieldOk k v = true := by simpa using h 0 (by simp)
      rw [if_pos hv, ih]
      intro j hj
      have := h (j + 1) (by simpa using hj)
      rwa [List.getD_cons_succ, show k + (j + 1) = k + 1 + j by omega] at this

/-- The bad field reported is the lowest one (R58, R82). -/
theorem firstBad_some {k b : Nat} {vs : List Half} :
    firstBad k vs = some b ↔ k ≤ b ∧ b < k + vs.length ∧ fieldOk b (vs.getD (b - k) 0) = false
      ∧ ∀ j, k ≤ j → j < b → fieldOk j (vs.getD (j - k) 0) = true := by
  induction vs generalizing k with
  | nil =>
    simp only [firstBad, List.length_nil, Nat.add_zero]
    constructor
    · intro h; cases h
    · intro h; omega
  | cons v vs ih =>
    unfold firstBad
    split
    next hv =>
      rw [ih]
      constructor
      · rintro ⟨h1, h2, h3, h4⟩
        refine ⟨by omega, by simp only [List.length_cons]; omega, ?_, ?_⟩
        · rwa [show b - k = (b - (k + 1)) + 1 by omega, List.getD_cons_succ]
        · intro j hj hjb
          rcases Nat.lt_or_ge k j with hlt | hge
          · rw [show j - k = (j - (k + 1)) + 1 by omega, List.getD_cons_succ]
            exact h4 j (by omega) hjb
          · rw [show j = k by omega]
            simpa using hv
      · rintro ⟨h1, h2, h3, h4⟩
        have hkb : k ≠ b := by
          rintro rfl
          simp [hv] at h3
        simp only [List.length_cons] at h2
        refine ⟨by omega, by omega, ?_, ?_⟩
        · rwa [show b - k = (b - (k + 1)) + 1 by omega, List.getD_cons_succ] at h3
        · intro j hj hjb
          have := h4 j (by omega) hjb
          rwa [show j - k = (j - (k + 1)) + 1 by omega, List.getD_cons_succ] at this
    next hv =>
      simp only [Option.some.injEq, List.length_cons]
      constructor
      · rintro rfl
        exact ⟨Nat.le_refl _, by omega, by simpa using hv, fun j hj hjb => by omega⟩
      · rintro ⟨h1, h2, h3, h4⟩
        rcases Nat.lt_or_ge k b with hlt | hge
        · exact absurd (by simpa using h4 k (Nat.le_refl _) hlt) hv
        · omega

theorem checksum_toNat (c : List Byte) : (checksum c).toNat = (c.map BitVec.toNat).sum % 256 := by
  simp [checksum]

@[simp] theorem fieldList_length (f : NamedFields) : (fieldList f).length = 14 := rfl

@[simp] theorem content_length (f : List Half) : (content f).length = f.length + 1 := by
  simp [content]

theorem content_getD (f : List Half) (j : Nat) (hj : j < f.length) :
    (content f).getD (j + 1) 0 = lowByte (f.getD j 0) := by
  simp [content, List.getD, hj]

/-- The frame of fourteen fields is seventeen bytes (R39). -/
theorem frameOf_length {f : List Half} (hf : f.length = 14) : (frameOf f).length = 17 := by
  simp [frameOf, hf]

theorem frameOf_take {f : List Half} (hf : f.length = 14) : (frameOf f).take 15 = content f := by
  have : (content f).length = 15 := by simp [hf]
  simp [frameOf, ← this]

theorem frameOf_start (f : List Half) : (frameOf f).getD 0 0 = 171 := by
  simp [frameOf, content, stTx]

theorem frameOf_field {f : List Half} (hf : f.length = 14) (k : Nat) (h1 : 1 ≤ k) (h14 : k ≤ 14) :
    (frameOf f).getD k 0 = lowByte (f.getD (k - 1) 0) := by
  have hc : k < (content f).length := by simp [hf]; omega
  have := content_getD f (k - 1) (by omega)
  rw [show k - 1 + 1 = k by omega] at this
  rw [← this]
  simp only [frameOf, List.getD, List.getElem?_append_left hc]

theorem frameOf_checksum {f : List Half} (hf : f.length = 14) :
    (frameOf f).getD 15 0 = checksum (content f) := by
  simp [frameOf, List.getD, hf]

theorem frameOf_stop {f : List Half} (hf : f.length = 14) : (frameOf f).getD 16 0 = 172 := by
  simp [frameOf, List.getD, hf, spTx]

/-- The two answers of Encode (R58). -/
theorem encodeFrame_ok {f : List Half} {b : List Byte} :
    encodeFrame f = .ok b ↔ firstBad 1 f = none ∧ b = frameOf f := by
  unfold encodeFrame
  split
  next k h => simp [h]
  next h =>
    simp only [h, Except.ok.injEq, true_and]
    exact eq_comm

theorem encodeFrame_error {f : List Half} {k : Nat} : encodeFrame f = .error k ↔ firstBad 1 f = some k := by
  unfold encodeFrame
  split <;> simp_all

/-- Decode of a unit that is not seventeen bytes long (R60, R77). -/
theorem decodeUnit_length {b : List Byte} {n : Nat} {strict : Bool} (hn : n ≠ 17) :
    decodeUnit b n strict = .error .length := by
  simp [decodeUnit, hn]

/-- Decode of a mismatch under strictness (R60, R78). -/
theorem decodeUnit_strict {b : List Byte} {strict : Bool} (h : checksum (b.take 15) ≠ b.getD 15 0)
    (hs : strict = true) : decodeUnit b 17 strict = .error (.checksum (checksum (b.take 15))) := by
  subst hs
  simp only [decodeUnit, if_true, Bool.and_true]
  rw [if_pos]
  simpa using h

/-- Decode of a match, or of a mismatch that is tolerated (R60). -/
theorem decodeUnit_ok {b : List Byte} {strict : Bool} (h : checksum (b.take 15) = b.getD 15 0 ∨ strict = false) :
    decodeUnit b 17 strict
      = .ok { content := b.take 15, crcOk := checksum (b.take 15) == b.getD 15 0, sum := checksum (b.take 15) } := by
  simp only [decodeUnit, if_true]
  rw [if_neg]
  rcases h with h | h
  · simp [h]
  · simp [h]

/-- Everything Decode can answer (R60). -/
theorem decodeUnit_cases (b : List Byte) (n : Nat) (strict : Bool) :
    (n ≠ 17 ∧ decodeUnit b n strict = .error .length)
      ∨ (n = 17 ∧ checksum (b.take 15) ≠ b.getD 15 0 ∧ strict = true
          ∧ decodeUnit b n strict = .error (.checksum (checksum (b.take 15))))
      ∨ (n = 17 ∧ (checksum (b.take 15) = b.getD 15 0 ∨ strict = false)
          ∧ decodeUnit b n strict = .ok
              { content := b.take 15, crcOk := checksum (b.take 15) == b.getD 15 0, sum := checksum (b.take 15) }) := by
  by_cases hn : n = 17
  · subst hn
    by_cases hc : checksum (b.take 15) = b.getD 15 0
    · exact .inr (.inr ⟨rfl, .inl hc, decodeUnit_ok (.inl hc)⟩)
    · cases strict with
      | true => exact .inr (.inl ⟨rfl, hc, rfl, decodeUnit_strict hc rfl⟩)
      | false => exact .inr (.inr ⟨rfl, .inr rfl, decodeUnit_ok (.inr rfl)⟩)
  · exact .inl ⟨hn, decodeUnit_length hn⟩

/-! ### The registers and the buffer as the lists the pure functions take -/

@[simp] theorem State.frame_length (s : State) : s.frame.length = 17 := by
  simp [State.frame]

theorem State.frame_getD (s : State) (k : Nat) (hk : k < 17) : s.frame.getD k 0 = s.byteAt k := by
  have h := Memory.readFrom_getD s.buf 0 17 k hk
  rwa [Nat.zero_add] at h

/-- The content bytes of the buffer, one by one. -/
theorem State.frame_take (s : State) : s.frame.take 15 = (List.range 15).map s.byteAt := by
  simp [State.frame, Memory.readFrom, State.byteAt, List.range, List.range.loop]

/-- The checksum DEC recomputes is `(B[0] + .. + B[14]) mod 256` (R65). -/
theorem State.checksum_frame (s : State) :
    (checksum (s.frame.take 15)).toNat = ((List.range 15).map fun k => (s.byteAt k).toNat).sum % 256 := by
  rw [checksum_toNat, State.frame_take, List.map_map]
  rfl

/-- The operands of ENC, one by one. -/
theorem State.operands_eq (s : State) : s.operands = (List.range 14).map fun j => s.field (j + 1) := by
  apply List.ext_getElem
  · simp [State.operands_length]
  · intro j h1 h2
    have hj : j < 14 := by simpa [State.operands_length] using h1
    have := State.operands_getD s j hj
    simp only [List.getD, List.getElem?_eq_getElem h1, Option.getD_some] at this
    simp [this]

/-- The checksum ENC computes is `(171 + F[1] + .. + F[14]) mod 256` when no field is too wide (R63). -/
theorem checksum_content {f : List Half} (h : ∀ v ∈ f, v.toNat ≤ 255) :
    (checksum (content f)).toNat = (171 + (f.map BitVec.toNat).sum) % 256 := by
  rw [checksum_toNat, content, List.map_cons, List.sum_cons, List.map_map]
  have : f.map (BitVec.toNat ∘ lowByte) = f.map BitVec.toNat :=
    List.map_congr_left fun v hv => lowByte_toNat (h v hv)
  rw [this]
  rfl

end Sys2Proof.Machine
end

