-- ==== Sys2Proof/Laws/Exec.lean ====
section
/-! SUPPORT. What each meaning and the step answer, said once: one equation per case, and one lemma that lists the cases. -/

namespace Sys2Proof.Machine

variable {s t : State}

/-! ### The codec operations, field by field -/

@[simp] theorem encFail_f (k : Nat) : (encFail k s).f = s.f := rfl
@[simp] theorem encFail_buf (k : Nat) : (encFail k s).buf = s.buf := rfl
@[simp] theorem encFail_blen (k : Nat) : (encFail k s).blen = s.blen := rfl
@[simp] theorem encFail_csum (k : Nat) : (encFail k s).csum = s.csum := rfl
@[simp] theorem encFail_ctrl (k : Nat) : (encFail k s).ctrl = s.ctrl := rfl
@[simp] theorem encFail_status (k : Nat) : (encFail k s).status = statusWord lastEnc errEncodeRange false false (BitVec.ofNat 4 k) := rfl
@[simp] theorem encFail_inbox (k : Nat) : (encFail k s).inbox = s.inbox := rfl
@[simp] theorem encFail_outbox (k : Nat) : (encFail k s).outbox = s.outbox ++ [.response (responseWord 1 0)] := rfl

@[simp] theorem encDone_f (b : List Byte) : (encDone b s).f = s.f := rfl
@[simp] theorem encDone_buf (b : List Byte) : (encDone b s).buf = s.buf.writeFrom 0 b := rfl
@[simp] theorem encDone_blen (b : List Byte) : (encDone b s).blen = 17 := rfl
@[simp] theorem encDone_csum (b : List Byte) : (encDone b s).csum = b.getD 15 0 := rfl
@[simp] theorem encDone_ctrl (b : List Byte) : (encDone b s).ctrl = s.ctrl := rfl
@[simp] theorem encDone_status (b : List Byte) : (encDone b s).status = statusWord lastEnc errNone false false 0 := rfl
@[simp] theorem encDone_inbox (b : List Byte) : (encDone b s).inbox = s.inbox := rfl
@[simp] theorem encDone_outbox (b : List Byte) : (encDone b s).outbox = s.outbox ++ [.response (responseWord 0 0)] := rfl

@[simp] theorem decFailLength_f : (decFailLength s).f = s.f := rfl
@[simp] theorem decFailLength_buf : (decFailLength s).buf = s.buf := rfl
@[simp] theorem decFailLength_blen : (decFailLength s).blen = s.blen := rfl
@[simp] theorem decFailLength_csum : (decFailLength s).csum = s.csum := rfl
@[simp] theorem decFailLength_ctrl : (decFailLength s).ctrl = s.ctrl := rfl
@[simp] theorem decFailLength_status : (decFailLength s).status = statusWord lastDec errMalformed false false 0 := rfl
@[simp] theorem decFailLength_inbox : (decFailLength s).inbox = s.inbox := rfl
@[simp] theorem decFailLength_outbox : (decFailLength s).outbox = s.outbox ++ [.response (responseWord 2 0)] := rfl

@[simp] theorem decFailChecksum_f (c : Byte) : (decFailChecksum c s).f = s.f := rfl
@[simp] theorem decFailChecksum_buf (c : Byte) : (decFailChecksum c s).buf = s.buf := rfl
@[simp] theorem decFailChecksum_blen (c : Byte) : (decFailChecksum c s).blen = s.blen := rfl
@[simp] theorem decFailChecksum_csum (c : Byte) : (decFailChecksum c s).csum = c := rfl
@[simp] theorem decFailChecksum_ctrl (c : Byte) : (decFailChecksum c s).ctrl = s.ctrl := rfl
@[simp] theorem decFailChecksum_status (c : Byte) : (decFailChecksum c s).status = statusWord lastDec errMalformed true false 0 := rfl
@[simp] theorem decFailChecksum_inbox (c : Byte) : (decFailChecksum c s).inbox = s.inbox := rfl
@[simp] theorem decFailChecksum_outbox (c : Byte) : (decFailChecksum c s).outbox = s.outbox ++ [.response (responseWord 2 0)] := rfl

@[simp] theorem decDone_f (d : Decoded) : (decDone d s).f = Vector.ofFn fun k => zext16 (d.content.getD k.val 0) := rfl
@[simp] theorem decDone_buf (d : Decoded) : (decDone d s).buf = s.buf := rfl
@[simp] theorem decDone_blen (d : Decoded) : (decDone d s).blen = s.blen := rfl
@[simp] theorem decDone_csum (d : Decoded) : (decDone d s).csum = d.sum := rfl
@[simp] theorem decDone_ctrl (d : Decoded) : (decDone d s).ctrl = s.ctrl := rfl
@[simp] theorem decDone_status (d : Decoded) : (decDone d s).status = statusWord lastDec errNone true d.crcOk 0 := rfl
@[simp] theorem decDone_inbox (d : Decoded) : (decDone d s).inbox = s.inbox := rfl
@[simp] theorem decDone_outbox (d : Decoded) : (decDone d s).outbox = s.outbox ++ [.response (responseWord 0 0)] := rfl

/-- The lowest bad operand of ENC (R63, R82). -/
theorem firstBad_operands {k : Nat} :
    firstBad 1 s.operands = some k ↔ 1 ≤ k ∧ k ≤ 14 ∧ fieldOk k (s.field k) = false
      ∧ ∀ j, 1 ≤ j → j < k → fieldOk j (s.field j) = true := by
  rw [firstBad_some, State.operands_length]
  constructor
  · rintro ⟨h1, h2, h3, h4⟩
    refine ⟨h1, by omega, ?_, ?_⟩
    · rwa [State.operands_getD s (k - 1) (by omega), show k - 1 + 1 = k by omega] at h3
    · intro j hj hjk
      have := h4 j hj hjk
      rwa [State.operands_getD s (j - 1) (by omega), show j - 1 + 1 = j by omega] at this
  · rintro ⟨h1, h2, h3, h4⟩
    refine ⟨h1, by omega, ?_, ?_⟩
    · rwa [State.operands_getD s (k - 1) (by omega), show k - 1 + 1 = k by omega]
    · intro j hj hjk
      rw [State.operands_getD s (j - 1) (by omega), show j - 1 + 1 = j by omega]
      exact h4 j hj hjk

/-- No operand of ENC is bad (R63). -/
theorem firstBad_operands_none : firstBad 1 s.operands = none ↔ s.FieldsOk := by
  rw [firstBad_none, State.operands_length]
  constructor
  · intro h k h1 h14
    have := h (k - 1) (by omega)
    rwa [State.operands_getD s (k - 1) (by omega), show 1 + (k - 1) = k by omega,
      show k - 1 + 1 = k by omega] at this
  · intro h j hj
    rw [State.operands_getD s j hj, Nat.add_comm 1 j]
    exact h (j + 1) (by omega) (by omega)

/-- ENC when every field passes (R63). -/
theorem execEnc_ok (h : s.FieldsOk) : execEnc s = .next (encDone (frameOf s.operands) s) := by
  simp [execEnc, encodeFrame, firstBad_operands_none.2 h]

/-- ENC when `k` is the lowest bad field (R63, R76). -/
theorem execEnc_bad {k : Nat} (h : firstBad 1 s.operands = some k) : execEnc s = .next (encFail k s) := by
  simp [execEnc, encodeFrame, h]

/-- Everything ENC can answer (R63). The frame is named, so that no proof evaluates it. -/
theorem execEnc_cases (h : execEnc s = .next t) :
    (s.FieldsOk ∧ ∃ b, frameOf s.operands = b ∧ t = encDone b s)
      ∨ ∃ k, firstBad 1 s.operands = some k ∧ t = encFail k s := by
  cases hb : firstBad 1 s.operands with
  | none =>
    rw [execEnc_ok (firstBad_operands_none.1 hb)] at h
    exact .inl ⟨firstBad_operands_none.1 hb, _, rfl, by cases h; rfl⟩
  | some k =>
    rw [execEnc_bad hb] at h
    exact .inr ⟨k, rfl, by cases h; rfl⟩

/-- Everything DEC can answer (R65). The content bytes and their checksum are named, so that no proof evaluates them. -/
theorem execDec_cases (s : State) :
    ∃ (g : List Byte) (c : Byte), s.frame.take 15 = g ∧ checksum g = c
      ∧ ((s.blen ≠ 17 ∧ execDec s = .next (decFailLength s))
        ∨ (s.blen = 17 ∧ c ≠ s.byteAt 15 ∧ s.strict = true ∧ execDec s = .next (decFailChecksum c s))
        ∨ (s.blen = 17 ∧ (c = s.byteAt 15 ∨ s.strict = false)
            ∧ execDec s = .next (decDone { content := g, crcOk := c == s.byteAt 15, sum := c } s))) := by
  refine ⟨_, _, rfl, rfl, ?_⟩
  have hlen : s.blen.toNat = 17 ↔ s.blen = 17 := by
    rw [← BitVec.toNat_inj]
    exact Iff.rfl
  have h15 := State.frame_getD s 15 (by omega)
  rcases decodeUnit_cases s.frame s.blen.toNat s.strict with ⟨hn, hd⟩ | ⟨hn, hc, hs, hd⟩ | ⟨hn, hc, hd⟩
  · exact .inl ⟨fun e => hn (hlen.2 e), by simp only [execDec, hd]⟩
  · rw [h15] at hc
    exact .inr (.inl ⟨hlen.1 hn, hc, hs, by simp only [execDec, hd]⟩)
  · rw [h15] at hc hd
    exact .inr (.inr ⟨hlen.1 hn, hc, by simp only [execDec, hd]⟩)

/-- PUSH keeps the canonical form of the buffer. -/
theorem pushStore_wf (h : s.buf.wf = true) (b : Byte) : (pushStore b s).buf.wf = true := by
  unfold pushStore
  split
  next hle => exact Memory.write_wf h hle b
  next => exact h

/-- PUSH's count: one more, at most 255 (R70). -/
theorem pushCount_toNat : (pushCount s).blen.toNat = min (s.blen.toNat + 1) 255 := by
  have := s.blen.isLt
  unfold pushCount
  split
  next h =>
    simp only [State.setBlen_blen, BitVec.toNat_add, BitVec.ofNat_eq_ofNat, BitVec.toNat_ofNat]
    omega
  next h => omega

@[simp] theorem pushCount_buf : (pushCount s).buf = s.buf := by
  unfold pushCount; split <;> rfl
@[simp] theorem pushCount_f : (pushCount s).f = s.f := by
  unfold pushCount; split <;> rfl
@[simp] theorem pushCount_csum : (pushCount s).csum = s.csum := by
  unfold pushCount; split <;> rfl
@[simp] theorem pushCount_ctrl : (pushCount s).ctrl = s.ctrl := by
  unfold pushCount; split <;> rfl
@[simp] theorem pushCount_status : (pushCount s).status = s.status := by
  unfold pushCount; split <;> rfl
@[simp] theorem pushCount_inbox : (pushCount s).inbox = s.inbox := by
  unfold pushCount; split <;> rfl
@[simp] theorem pushCount_outbox : (pushCount s).outbox = s.outbox := by
  unfold pushCount; split <;> rfl
@[simp] theorem pushStore_f (b : Byte) : (pushStore b s).f = s.f := by
  unfold pushStore; split <;> rfl
@[simp] theorem pushStore_blen (b : Byte) : (pushStore b s).blen = s.blen := by
  unfold pushStore; split <;> rfl
@[simp] theorem pushStore_csum (b : Byte) : (pushStore b s).csum = s.csum := by
  unfold pushStore; split <;> rfl
@[simp] theorem pushStore_ctrl (b : Byte) : (pushStore b s).ctrl = s.ctrl := by
  unfold pushStore; split <;> rfl
@[simp] theorem pushStore_status (b : Byte) : (pushStore b s).status = s.status := by
  unfold pushStore; split <;> rfl
@[simp] theorem pushStore_inbox (b : Byte) : (pushStore b s).inbox = s.inbox := by
  unfold pushStore; split <;> rfl
@[simp] theorem pushStore_outbox (b : Byte) : (pushStore b s).outbox = s.outbox := by
  unfold pushStore; split <;> rfl

/-- What PUSH's store does to the bytes (R70). -/
theorem pushStore_byteAt (h : s.buf.wf = true) (b : Byte) (k : Nat) :
    (pushStore b s).byteAt k = if s.blen.toNat ≤ 16 ∧ k = s.blen.toNat then b else s.byteAt k := by
  unfold pushStore
  split
  next hle =>
    simp only [State.byteAt, State.setByte_buf, Memory.read_write h]
    simp [hle]
  next hle => simp [hle]

/-- What writing a whole frame does to the bytes (R63). -/
theorem setFrame_byteAt (h : s.buf.wf = true) {b : List Byte} (hb : b.length = 17) (k : Nat) :
    (s.setFrame b).byteAt k = if k < 17 then b.getD k 0 else s.byteAt k := by
  simp only [State.byteAt, State.setFrame_buf]
  rw [Memory.read_writeFrom h 0 b (by omega)]
  simp [hb]

theorem encDone_byteAt (h : s.buf.wf = true) {b : List Byte} (hb : b.length = 17) (k : Nat) :
    (encDone b s).byteAt k = if k < 17 then b.getD k 0 else s.byteAt k := by
  rw [← setFrame_byteAt h hb]
  exact State.byteAt_of_buf rfl k

/-- Every instruction answers a next state, adds one answer for the host and leaves the host's events alone
(R51, R85). -/
theorem exec_answers (i : Instr) (s : State) :
    ∃ t a, exec i s = .next t ∧ t.inbox = s.inbox ∧ t.outbox = s.outbox ++ [a] := by
  cases i with
  | enc =>
    cases hb : firstBad 1 s.operands with
    | none => exact ⟨_, _, execEnc_ok (firstBad_operands_none.1 hb), encDone_inbox .., encDone_outbox ..⟩
    | some k => exact ⟨_, _, execEnc_bad hb, encFail_inbox .., encFail_outbox ..⟩
  | dec =>
    obtain ⟨g, c, -, -, ⟨-, h⟩ | ⟨-, -, -, h⟩ | ⟨-, -, h⟩⟩ := execDec_cases s
    · exact ⟨_, _, h, decFailLength_inbox .., decFailLength_outbox ..⟩
    · exact ⟨_, _, h, decFailChecksum_inbox .., decFailChecksum_outbox ..⟩
    · exact ⟨_, _, h, decDone_inbox .., decDone_outbox ..⟩
  | frameCmd f => simp only [exec, execFrameCmd]; split <;> exact ⟨_, _, rfl, rfl, rfl⟩
  | frameRsp b => simp only [exec, execFrameRsp]; split <;> exact ⟨_, _, rfl, rfl, rfl⟩
  | push b => exact ⟨_, .response (responseWord 0 0), rfl, by simp, by simp⟩
  | wrf _ _ => simp only [exec, execWrf]; split <;> exact ⟨_, _, rfl, rfl, rfl⟩
  | rdf _ => simp only [exec, execRdf]; split <;> exact ⟨_, _, rfl, rfl, rfl⟩
  | rdb _ => simp only [exec, execRdb]; split <;> exact ⟨_, _, rfl, rfl, rfl⟩
  | rdsr _ => simp only [exec, execRdsr]; split <;> exact ⟨_, _, rfl, rfl, rfl⟩
  | wrsr _ _ => simp only [exec, execWrsr]; split <;> exact ⟨_, _, rfl, rfl, rfl⟩
  | _ => exact ⟨_, _, rfl, rfl, rfl⟩

/-- A rejected request adds one answer and leaves the host's events alone (R48, R79). -/
theorem reject_answers (why : Reject) (s : State) :
    ∃ a, (s.reject why).inbox = s.inbox ∧ (s.reject why).outbox = s.outbox ++ [a] := by
  cases why <;> exact ⟨_, rfl, rfl⟩

/-- A rejected command word is IllegalOperation, whatever the decoder's reason (R54, R79). -/
theorem reject_command {w : CmdWord} {why : Reject} (h : decode (.command w) = .error why) (s : State) :
    s.reject why = s.raiseIllegal := by
  simp only [decode, decodeWord, decodePlain, decodeWrf, decodeIndexed, decodePush, decodeWrsr] at h
  repeat' (split at h)
  all_goals first | (cases h; done) | (cases h; rfl)

/-- Reset, request or wait: everything a step can be (R9, R80, R89). -/
theorem step_cases (s : State) :
    (s.inbox = [] ∧ step s = .next s)
      ∨ (∃ rest, s.inbox = .reset :: rest ∧ step s = .next s.takeEvent.resetBlock)
      ∨ (∃ r rest i, s.inbox = .issue r :: rest ∧ decode r = .ok i ∧ step s = exec i s.takeEvent)
      ∨ ∃ r rest why, s.inbox = .issue r :: rest ∧ decode r = .error why ∧ step s = .next (s.takeEvent.reject why) := by
  rcases hi : s.inbox with _ | ⟨_ | _, rest⟩
  · exact .inl ⟨rfl, by simp [step, fetch, hi]⟩
  · next r =>
    cases hd : decode r with
    | ok i => exact .inr (.inr (.inl ⟨r, rest, i, rfl, hd, by simp [step, fetch, hi, hd]⟩))
    | error why => exact .inr (.inr (.inr ⟨r, rest, why, rfl, hd, by simp [step, fetch, hi, hd]⟩))
  · exact .inr (.inl ⟨rest, rfl, by simp [step, fetch, hi]⟩)

end Sys2Proof.Machine
end

