-- ==== Sys2Proof/Laws/PerInstr.lean ====
section
/-! SUPPORT. The statements made per instruction. -/

/-- Reset is not a command word (70_reset_and_hazards.md R89): no instruction is spelt by the reset event. -/
def Sys2Proof.Laws.NoReset.Statement (i : Sys2Proof.Instr) : Prop :=
  Sys2Proof.HostEvent.issue (Sys2Proof.encode i) ≠ Sys2Proof.HostEvent.reset

theorem Sys2Proof.Laws.NoReset.nop :
    Sys2Proof.Laws.NoReset.Statement (.nop) := Sys2Proof.HostEvent.noConfusion
theorem Sys2Proof.Laws.NoReset.wrf (idx : Sys2Proof.Byte) (imm : Sys2Proof.Half) :
    Sys2Proof.Laws.NoReset.Statement (.wrf idx imm) := Sys2Proof.HostEvent.noConfusion
theorem Sys2Proof.Laws.NoReset.rdf (idx : Sys2Proof.Byte) :
    Sys2Proof.Laws.NoReset.Statement (.rdf idx) := Sys2Proof.HostEvent.noConfusion
theorem Sys2Proof.Laws.NoReset.push (imm : Sys2Proof.Byte) :
    Sys2Proof.Laws.NoReset.Statement (.push imm) := Sys2Proof.HostEvent.noConfusion
theorem Sys2Proof.Laws.NoReset.rdb (idx : Sys2Proof.Byte) :
    Sys2Proof.Laws.NoReset.Statement (.rdb idx) := Sys2Proof.HostEvent.noConfusion
theorem Sys2Proof.Laws.NoReset.bclr :
    Sys2Proof.Laws.NoReset.Statement (.bclr) := Sys2Proof.HostEvent.noConfusion
theorem Sys2Proof.Laws.NoReset.enc :
    Sys2Proof.Laws.NoReset.Statement (.enc) := Sys2Proof.HostEvent.noConfusion
theorem Sys2Proof.Laws.NoReset.dec :
    Sys2Proof.Laws.NoReset.Statement (.dec) := Sys2Proof.HostEvent.noConfusion
theorem Sys2Proof.Laws.NoReset.rdsr (idx : Sys2Proof.Byte) :
    Sys2Proof.Laws.NoReset.Statement (.rdsr idx) := Sys2Proof.HostEvent.noConfusion
theorem Sys2Proof.Laws.NoReset.wrsr (idx : Sys2Proof.Byte) (imm : Sys2Proof.Half) :
    Sys2Proof.Laws.NoReset.Statement (.wrsr idx imm) := Sys2Proof.HostEvent.noConfusion
theorem Sys2Proof.Laws.NoReset.frameCmd (fields : Sys2Proof.NamedFields) :
    Sys2Proof.Laws.NoReset.Statement (.frameCmd fields) := Sys2Proof.HostEvent.noConfusion
theorem Sys2Proof.Laws.NoReset.frameRsp (bytes : List Sys2Proof.Byte) :
    Sys2Proof.Laws.NoReset.Statement (.frameRsp bytes) := Sys2Proof.HostEvent.noConfusion
theorem Sys2Proof.Laws.NoReset.modeTx :
    Sys2Proof.Laws.NoReset.Statement (.modeTx) := Sys2Proof.HostEvent.noConfusion
theorem Sys2Proof.Laws.NoReset.modeRx :
    Sys2Proof.Laws.NoReset.Statement (.modeRx) := Sys2Proof.HostEvent.noConfusion
theorem Sys2Proof.Laws.NoReset.modeTxF :
    Sys2Proof.Laws.NoReset.Statement (.modeTxF) := Sys2Proof.HostEvent.noConfusion
theorem Sys2Proof.Laws.NoReset.modeRxF :
    Sys2Proof.Laws.NoReset.Statement (.modeRxF) := Sys2Proof.HostEvent.noConfusion
theorem Sys2Proof.Laws.NoReset.modeServiceF :
    Sys2Proof.Laws.NoReset.Statement (.modeServiceF) := Sys2Proof.HostEvent.noConfusion
theorem Sys2Proof.Laws.NoReset.modeOtaF :
    Sys2Proof.Laws.NoReset.Statement (.modeOtaF) := Sys2Proof.HostEvent.noConfusion
theorem Sys2Proof.Laws.NoReset.ctrCmd :
    Sys2Proof.Laws.NoReset.Statement (.ctrCmd) := Sys2Proof.HostEvent.noConfusion
theorem Sys2Proof.Laws.NoReset.ctrBroadcastCmd :
    Sys2Proof.Laws.NoReset.Statement (.ctrBroadcastCmd) := Sys2Proof.HostEvent.noConfusion
theorem Sys2Proof.Laws.NoReset.ctrRead :
    Sys2Proof.Laws.NoReset.Statement (.ctrRead) := Sys2Proof.HostEvent.noConfusion
theorem Sys2Proof.Laws.NoReset.ctrBindStart :
    Sys2Proof.Laws.NoReset.Statement (.ctrBindStart) := Sys2Proof.HostEvent.noConfusion
theorem Sys2Proof.Laws.NoReset.ctrBindStop :
    Sys2Proof.Laws.NoReset.Statement (.ctrBindStop) := Sys2Proof.HostEvent.noConfusion
theorem Sys2Proof.Laws.NoReset.ctrClear :
    Sys2Proof.Laws.NoReset.Statement (.ctrClear) := Sys2Proof.HostEvent.noConfusion
theorem Sys2Proof.Laws.NoReset.ctrClearAll :
    Sys2Proof.Laws.NoReset.Statement (.ctrClearAll) := Sys2Proof.HostEvent.noConfusion
theorem Sys2Proof.Laws.NoReset.ctrUnbind :
    Sys2Proof.Laws.NoReset.Statement (.ctrUnbind) := Sys2Proof.HostEvent.noConfusion
theorem Sys2Proof.Laws.NoReset.ctrCmdFAddr :
    Sys2Proof.Laws.NoReset.Statement (.ctrCmdFAddr) := Sys2Proof.HostEvent.noConfusion
theorem Sys2Proof.Laws.NoReset.cmdOff :
    Sys2Proof.Laws.NoReset.Statement (.cmdOff) := Sys2Proof.HostEvent.noConfusion
theorem Sys2Proof.Laws.NoReset.cmdOn :
    Sys2Proof.Laws.NoReset.Statement (.cmdOn) := Sys2Proof.HostEvent.noConfusion
theorem Sys2Proof.Laws.NoReset.cmdBatteryLow :
    Sys2Proof.Laws.NoReset.Statement (.cmdBatteryLow) := Sys2Proof.HostEvent.noConfusion
theorem Sys2Proof.Laws.NoReset.cmdSensorTempHum :
    Sys2Proof.Laws.NoReset.Statement (.cmdSensorTempHum) := Sys2Proof.HostEvent.noConfusion
theorem Sys2Proof.Laws.NoReset.cmdTemporaryOn :
    Sys2Proof.Laws.NoReset.Statement (.cmdTemporaryOn) := Sys2Proof.HostEvent.noConfusion
theorem Sys2Proof.Laws.NoReset.cmdSendState :
    Sys2Proof.Laws.NoReset.Statement (.cmdSendState) := Sys2Proof.HostEvent.noConfusion
end

