-- ==== Sys2Proof/Tests/Slice0.lean ====
section
/-! SUPPORT. The model's own tests. Expected values are the spec's: the encodings of 30_encoding.md and the vectors of
95_test_vectors.md, named in each comment. A theorem `witness_<Name>` shows values that meet all hypotheses of
`Obligations.<Name>` together. -/

namespace Sys2Proof.Tests

open Sys2Proof Sys2Proof.Machine

/-! ### Small states -/

/-- Reset, then the listed field registers written. -/
def withFields (l : List (Nat × Half)) : State := l.foldl (fun s p => s.setField p.1 p.2) State.reset

/-- Reset, then the listed bytes in the buffer, `BLEN` = `n`, and `STRICT`. -/
def withUnit (b : List Byte) (n : Byte) (strict : Bool) : State :=
  { (State.reset.setFrame b).setBlen n with ctrl := if strict then 1 else 0 }

/-- Reset with events for the block. -/
def withEvents (l : List HostEvent) : State := { State.reset with inbox := l }

/-- The state after an instruction (every instruction answers a next state). -/
def after (i : Instr) (s : State) : State :=
  match exec i s with
  | .next t => t
  | .fault _ => s
  | .refused _ => s

/-- The state after a step. -/
def afterStep (s : State) : State :=
  match step s with
  | .next t => t
  | .fault _ => s
  | .refused _ => s

/-- The frame of V-D1 and V-E6. -/
def frameD1 : List Byte := [0xAB, 1, 0, 0, 7, 0x19, 0, 4, 0, 0, 0, 0, 0, 0, 0, 0xD0, 0xAC]

/-- The frame of V-D9 and V-D10: V-D1 with its checksum raised by one. -/
def frameD9 : List Byte := [0xAB, 1, 0, 0, 7, 0x19, 0, 4, 0, 0, 0, 0, 0, 0, 0, 0xD1, 0xAC]

/-- The named fields of V-E6. -/
def fieldsE6 : NamedFields :=
  { mode := 1, ctr := 0, res := 0, ch := 7, cmd := 25, fmt := 0, d0 := 4, d1 := 0, d2 := 0, d3 := 0, id0 := 0, id1 := 0,
    id2 := 0, id3 := 0 }

/-- The fields of V-E18: `ctr` = 9, `ch` = 300. -/
def fieldsE18 : NamedFields := { fieldsE6 with mode := 0, ctr := 9, ch := 300, cmd := 0, d0 := 0 }

/-! ### Well-formedness refuses each ill-formed term (R50, R54) -/

theorem test_wf_wrf : (Instr.wrf 15 0).WellFormed = false := by decide
theorem test_wf_rdf : (Instr.rdf 15).WellFormed = false := by decide
theorem test_wf_rdb : (Instr.rdb 17).WellFormed = false := by decide
theorem test_wf_rdsr : (Instr.rdsr 4).WellFormed = false := by decide
theorem test_wf_wrsr : (Instr.wrsr 1 0).WellFormed = false := by decide
theorem test_wf_frameCmd : (Instr.frameCmd fieldsE18).WellFormed = false := by decide
theorem test_wf_frameRsp : (Instr.frameRsp (frameD1.take 16)).WellFormed = false := by decide

/-! ### Decoding, words written out from R49 and R50: op 31:24, idx 23:16, imm 15:0 -/

theorem test_decode_nop : decode (.command 0b00000000000000000000000000000000#32) = .ok .nop := by decide
theorem test_decode_wrf : decode (.command 0b00000001000011101111111111111111#32) = .ok (.wrf 14 0xFFFF) := by decide
theorem test_decode_rdf : decode (.command 0b00000010000001010000000000000000#32) = .ok (.rdf 5) := by decide
theorem test_decode_push : decode (.command 0b00000011000000000000000010101011#32) = .ok (.push 0xAB) := by decide
theorem test_decode_rdb : decode (.command 0b00000100000011110000000000000000#32) = .ok (.rdb 15) := by decide
theorem test_decode_bclr : decode (.command 0b00000101000000000000000000000000#32) = .ok .bclr := by decide
theorem test_decode_enc : decode (.command 0b00000110000000000000000000000000#32) = .ok .enc := by decide
theorem test_decode_dec : decode (.command 0b00000111000000000000000000000000#32) = .ok .dec := by decide
theorem test_decode_rdsr : decode (.command 0b00001000000000110000000000000000#32) = .ok (.rdsr 3) := by decide
theorem test_decode_wrsr : decode (.command 0b00001001000000001111111111111110#32) = .ok (.wrsr 0 0xFFFE) := by decide

/-- R42. -/
theorem test_decode_mode :
    decode (.nameCall .mode 0) = .ok .modeTx ∧ decode (.nameCall .mode 1) = .ok .modeRx
      ∧ decode (.nameCall .mode 2) = .ok .modeTxF ∧ decode (.nameCall .mode 3) = .ok .modeRxF
      ∧ decode (.nameCall .mode 4) = .ok .modeServiceF ∧ decode (.nameCall .mode 5) = .ok .modeOtaF
      ∧ decode (.nameCall .mode 6) = .error (.noName .mode 6) := by decide

/-- R43. -/
theorem test_decode_ctr :
    decode (.nameCall .ctr 0) = .ok .ctrCmd ∧ decode (.nameCall .ctr 1) = .ok .ctrBroadcastCmd
      ∧ decode (.nameCall .ctr 2) = .ok .ctrRead ∧ decode (.nameCall .ctr 3) = .ok .ctrBindStart
      ∧ decode (.nameCall .ctr 4) = .ok .ctrBindStop ∧ decode (.nameCall .ctr 5) = .ok .ctrClear
      ∧ decode (.nameCall .ctr 6) = .ok .ctrClearAll ∧ decode (.nameCall .ctr 7) = .ok .ctrUnbind
      ∧ decode (.nameCall .ctr 8) = .ok .ctrCmdFAddr
      ∧ decode (.nameCall .ctr 9) = .error (.noName .ctr 9) := by decide

/-- R44. -/
theorem test_decode_cmd :
    decode (.nameCall .cmd 0) = .ok .cmdOff ∧ decode (.nameCall .cmd 2) = .ok .cmdOn
      ∧ decode (.nameCall .cmd 20) = .ok .cmdBatteryLow ∧ decode (.nameCall .cmd 21) = .ok .cmdSensorTempHum
      ∧ decode (.nameCall .cmd 25) = .ok .cmdTemporaryOn ∧ decode (.nameCall .cmd 130) = .ok .cmdSendState
      ∧ decode (.nameCall .cmd 1) = .error (.noName .cmd 1) := by decide

/-- Row FRAME.CMD on the frame of V-E6, row FRAME.RSP on the frame of V-D9, whose checksum is off by one (R47). -/
theorem test_decode_frames :
    decodeTableWord 136 0xAB0100000719000400000000000000D0AC = some (.frameCmd fieldsE6)
      ∧ decodeTableWord 136 0xAB0100000719000400000000000000D1AC = some (.frameRsp frameD9) := by decide

/-- The table's rows by width: an 8-bit row, a 32-bit row, and a word that is no row (V-I1). -/
theorem test_decode_table :
    decodeTableWord 8 0 = some .modeTx ∧ decodeTableWord 8 8 = some .ctrCmdFAddr
      ∧ decodeTableWord 8 130 = some .cmdSendState ∧ decodeTableWord 8 200 = none
      ∧ decodeTableWord 32 0x06000000 = some .enc ∧ decodeTableWord 32 0x00000001 = none := by decide

/-- The illegal words of 95_test_vectors.md section 2.5, V-I1 to V-I18: none is an instruction (R54). -/
theorem test_illegal_words :
    [0x00000001, 0x00010000, 0x0A000000, 0xFF000000, 0x010F0000, 0x02040001, 0x02FF0000, 0x03000100, 0x03010000].all
        (fun w => (decodeTableWord 32 w).isNone) = true
      ∧ [0x04110000, 0x05000001, 0x06010000, 0x07000001, 0x08040000, 0x08010001, 0x09010000, 0x09020005, 0x09040000].all
        (fun w => (decodeTableWord 32 w).isNone) = true := by decide

/-- Their nearest legal words (95_test_vectors.md section 2.5). -/
theorem test_legal_words :
    [0x00000000, 0x09000000, 0x010E0000, 0x02040000, 0x020E0000, 0x030000FF, 0x03000000, 0x04100000].all
        (fun w => (decodeTableWord 32 w).isSome) = true
      ∧ [0x05000000, 0x06000000, 0x07000000, 0x08030000, 0x08010000, 0x09000005].all
        (fun w => (decodeTableWord 32 w).isSome) = true := by decide

/-- The encoder gives the command words of 95_test_vectors.md, programs P1, P2 and P3. -/
theorem test_encode :
    encode (.wrf 13 0x12) = .command 0x010D0012#32 ∧ encode (.rdb 15) = .command 0x040F0000#32
      ∧ encode (.push 0xD1) = .command 0x030000D1#32 ∧ encode (.wrsr 0 0) = .command 0x09000000#32
      ∧ encode .dec = .command 0x07000000#32 ∧ encode (.rdsr 2) = .command 0x08020000#32 := by decide

/-! ### The assembler (R56): lines of 95_test_vectors.md, programs P1 and P2 -/

theorem test_asm_wrf : assembleLine "wrf  ch, 3          ; 0x01040003 -> 0x00000000" = some [.wrf 4 3] := by decide
theorem test_asm_hex : assembleLine "wrf  id2, 0x12" = some [.wrf 13 0x12] := by decide
theorem test_asm_rdsr : assembleRequests "rdsr blen" = some [.command 0x08030000#32] := by decide
theorem test_asm_range : assembleLine "push 256" = none ∧ assembleLine "rdb 17" = none ∧ assembleLine "rdf 15" = none := by
  decide
/-- The pseudo-operation of program P3: BCLR and seventeen PUSH. -/
theorem test_asm_frame :
    assembleLine "frame AB 01 00 00 07 19 00 04 00 00 00 00 00 00 00 D1 AC" = some (framePseudo frameD9)
      ∧ (framePseudo frameD9).length = 18 := by decide

/-! ### The checksum, V-C1 to V-C8 -/

theorem test_checksum :
    checksum (List.replicate 15 0) = 0
      ∧ checksum [0xAB, 0, 0, 0, 3, 0, 0, 0, 0, 0, 0, 0, 0, 0, 0] = 0xAE
      ∧ checksum [0xAB, 0, 0, 0, 0x55, 0, 0, 0, 0, 0, 0, 0, 0, 0, 0] = 0
      ∧ checksum [0xAB, 2, 8, 0, 5, 2, 0, 0, 0, 0, 0, 0, 0, 0x12, 0x34] = 0x02
      ∧ checksum ([0xAB, 5, 8, 0xFF, 0xFF, 0x82] ++ List.replicate 9 0xFF) = 0x2F
      ∧ checksum (List.replicate 15 0xFF) = 0xF1
      ∧ checksum [0xAD, 2, 0, 0, 9, 0x82, 0, 0, 0, 1, 0x80, 0, 0, 0x12, 0x34] = 0x01
      ∧ checksum [0xAB, 1, 0, 1, 2, 0x15, 7, 0xF6, 0x0F, 0x2D, 0x96, 0, 0, 0, 0] = 0x93 := by decide

/-! ### One step of each operation -/

/-- The response words of a state's answers. -/
def responses (s : State) : List CmdWord :=
  s.outbox.filterMap fun a =>
    match a with
    | .response w => some w
    | _ => none

/-- V-A1. -/
theorem test_nop : responses (after .nop State.reset) = [0x00000000#32] := by decide
/-- V-A3. -/
theorem test_wrf :
    (after (.wrf 4 0xFFFF) State.reset).field 4 = 0xFFFF
      ∧ responses (after (.wrf 4 0xFFFF) State.reset) = [0x00000000#32] := by decide
/-- V-A3. -/
theorem test_rdf : responses (after (.rdf 4) (withFields [(4, 0xFFFF)])) = [0x0000FFFF#32] := by decide
/-- V-A5. -/
theorem test_push_first :
    (after (.push 0xAB) State.reset).byteAt 0 = 0xAB ∧ (after (.push 0xAB) State.reset).blen = 1 := by decide
/-- V-A12: on a full buffer the count goes to 18 and nothing is stored. -/
theorem test_push_full :
    (after (.push 0x55) (withUnit frameD1 17 true)).blen = 18
      ∧ (after (.push 0x55) (withUnit frameD1 17 true)).frame = frameD1 := by decide
/-- V-A8. -/
theorem test_bclr :
    (after .bclr (withUnit frameD1 255 true)).blen = 0
      ∧ (after .bclr (withUnit frameD1 255 true)).byteAt 16 = 0xAC := by decide
/-- P1: offset 16 of a command frame. -/
theorem test_rdb : responses (after (.rdb 16) (withUnit frameD1 0 true)) = [0x000000AC#32] := by decide
/-- V-A9. -/
theorem test_rdsr :
    responses (after (.rdsr 0) State.reset) = [0x00000001#32]
      ∧ responses (after (.rdsr 3) (withUnit frameD1 17 true)) = [0x00000011#32] := by decide
/-- V-A10 and V-A11. -/
theorem test_wrsr :
    (after (.wrsr 0 0xFFFE) State.reset).ctrl = 0 ∧ (after (.wrsr 0 0xFFFF) State.reset).ctrl = 1 := by decide

/-- The start state of V-E4. -/
def startE4 : State := withFields [(1, 2), (2, 8), (4, 5), (5, 2), (13, 0x12), (14, 0x34)]

/-- V-E4. -/
theorem test_enc :
    (after .enc startE4).frame = [0xAB, 2, 8, 0, 5, 2, 0, 0, 0, 0, 0, 0, 0, 0x12, 0x34, 0x02, 0xAC]
      ∧ (after .enc startE4).blen = 17 ∧ (after .enc startE4).csum = 0x02
      ∧ (after .enc startE4).status = 0x0001 := by decide
/-- V-E18. -/
theorem test_enc_bad :
    (after .enc (withFields [(2, 9), (4, 300)])).status = 0x0085
      ∧ responses (after .enc (withFields [(2, 9), (4, 300)])) = [0x01000000#32]
      ∧ (after .enc (withFields [(2, 9), (4, 300)])).blen = 0 := by decide
/-- V-D10: `st`, `cmd` and `d0` delivered, `STATUS` = 0x0012. -/
theorem test_dec_tolerant :
    (after .dec (withUnit frameD9 17 false)).f.toList = [171, 1, 0, 0, 7, 25, 0, 4, 0, 0, 0, 0, 0, 0, 0]
      ∧ (after .dec (withUnit frameD9 17 false)).csum = 0xD0
      ∧ (after .dec (withUnit frameD9 17 false)).status = 0x0012 := by decide
/-- V-D9. -/
theorem test_dec_strict :
    (after .dec (withUnit frameD9 17 true)).f = State.reset.f
      ∧ (after .dec (withUnit frameD9 17 true)).csum = 0xD0
      ∧ (after .dec (withUnit frameD9 17 true)).status = 0x001A
      ∧ responses (after .dec (withUnit frameD9 17 true)) = [0x02000000#32] := by decide

/-- FRAME.CMD on V-E6 and on V-E18 (R58). -/
theorem test_frameCmd :
    (after (.frameCmd fieldsE6) State.reset).outbox = [.encoded frameD1]
      ∧ (after (.frameCmd fieldsE18) State.reset).outbox = [.raised (.encodeRange 2)] := by decide
/-- FRAME.RSP on V-D9, strict and tolerant (R60). -/
theorem test_frameRsp :
    (after (.frameRsp frameD9) (withUnit [] 0 true)).outbox = [.raised (.malformedChecksum 0xD0)]
      ∧ (after (.frameRsp frameD9) (withUnit [] 0 false)).outbox
        = [.decoded { content := frameD9.take 15, crcOk := false, sum := 0xD0 }] := by decide
/-- R48: an enumeration row, offset 5, value 25. -/
theorem test_enum : (after .cmdTemporaryOn State.reset).outbox = [.member (.cmd .TEMPORARY_ON) 5 25] := by decide

/-- V-I12: an illegal ENC word is answered with code 3 and writes no `STATUS`. -/
theorem test_step_illegal :
    responses (afterStep (withEvents [.issue (.command 0x06010000#32)])) = [0x03000000#32]
      ∧ (afterStep (withEvents [.issue (.command 0x06010000#32)])).status = 0 := by decide
/-- Reset after some use (R89). -/
theorem test_step_reset :
    (afterStep { withUnit frameD1 17 false with inbox := [.reset] }).buf = []
      ∧ (afterStep { withUnit frameD1 17 false with inbox := [.reset] }).ctrl = 1
      ∧ (afterStep { withUnit frameD1 17 false with inbox := [.reset] }).outbox = [] := by decide

/-! ### Witnesses: values that meet the hypotheses of each statement together -/

/-- An ENC the host is about to present, in a state with a frame in the buffer. -/
def encPending : State := { withUnit frameD1 17 true with inbox := [.issue (.command 0x06000000#32), .reset] }

theorem witness_StepRunsTheDecodedInstruction :
    encPending.inbox = .issue (.command 0x06000000#32) :: [.reset] ∧ decode (.command 0x06000000#32) = .ok .enc := by decide

theorem witness_IllegalWordChangesNothing :
    (withEvents [.issue (.command 0x06010000#32)]).inbox = .issue (.command 0x06010000#32) :: []
      ∧ decode (.command 0x06010000#32) = .error .mustBeZero := by decide

theorem witness_IdleBlockWaits : (withUnit frameD1 17 true).inbox = [] := by decide

theorem witness_ResetEventResetsTheBlock :
    ({ withUnit frameD1 17 false with inbox := [.reset] } : State).inbox = .reset :: [] := by decide

/-- A legal and an illegal word. -/
theorem witness_OneResponsePerCommandWord :
    encPending.inbox = .issue (.command 0x06000000#32) :: [.reset]
      ∧ (withEvents [.issue (.command 0xFF000000#32)]).inbox = .issue (.command 0xFF000000#32) :: [] := by decide

theorem witness_StepTakesOneEventInOrder : step encPending = .next (afterStep encPending) := by rfl

theorem encPending_inv : encPending.Inv :=
  ⟨by decide, by simp only [CtrlLegal]; decide, by simp only [StatusLegal]; decide, by
    intro a h; simp [encPending, withUnit, State.setFrame, State.setBlen, State.reset] at h⟩

theorem witness_StepKeepsStateLegal : encPending.Inv ∧ step encPending = .next (afterStep encPending) :=
  ⟨encPending_inv, rfl⟩

/-- Two different states with the same bytes. -/
theorem witness_EqualBytesAreEqualBuffers :
    ({ encPending with inbox := [] } : State).Inv ∧ encPending.Inv
      ∧ ∀ k, k ≤ 16 → ({ encPending with inbox := [] } : State).byteAt k = encPending.byteAt k :=
  ⟨⟨encPending_inv.1, encPending_inv.2, encPending_inv.3, encPending_inv.4⟩, encPending_inv, fun _ _ => rfl⟩

/-- For each clause of R54 a word that meets it, in a state about to take it; and a legal word. -/
theorem witness_IllegalWordsAreExactlyThose :
    (∀ w : CmdWord, (withEvents [.issue (.command w)]).inbox = .issue (.command w) :: [])
      ∧ 10 ≤ ((0x0A000000#32 : CmdWord).extractLsb' 24 8).toNat
      ∧ (((0x00010000#32 : CmdWord).extractLsb' 24 8).toNat = 0 ∧ ((0x00010000#32 : CmdWord).extractLsb' 16 8).toNat ≠ 0)
      ∧ (((0x08010001#32 : CmdWord).extractLsb' 24 8).toNat = 8 ∧ ((0x08010001#32 : CmdWord).extractLsb' 0 16).toNat ≠ 0)
      ∧ (((0x010F0000#32 : CmdWord).extractLsb' 24 8).toNat = 1 ∧ 14 < ((0x010F0000#32 : CmdWord).extractLsb' 16 8).toNat)
      ∧ (((0x04110000#32 : CmdWord).extractLsb' 24 8).toNat = 4 ∧ 16 < ((0x04110000#32 : CmdWord).extractLsb' 16 8).toNat)
      ∧ (((0x08040000#32 : CmdWord).extractLsb' 24 8).toNat = 8 ∧ 3 < ((0x08040000#32 : CmdWord).extractLsb' 16 8).toNat)
      ∧ (((0x09030000#32 : CmdWord).extractLsb' 24 8).toNat = 9 ∧ ((0x09030000#32 : CmdWord).extractLsb' 16 8).toNat = 3)
      ∧ (((0x03000100#32 : CmdWord).extractLsb' 24 8).toNat = 3 ∧ 256 ≤ ((0x03000100#32 : CmdWord).extractLsb' 0 16).toNat)
      ∧ (((0x0900FFFF#32 : CmdWord).extractLsb' 24 8).toNat = 9 ∧ ((0x0900FFFF#32 : CmdWord).extractLsb' 16 8).toNat = 0) :=
  ⟨fun _ => rfl, by decide⟩

/-- Every operand at the ends of its range. -/
theorem witness_EveryInstructionDecodesBack :
    (Instr.wrf 14 0xFFFF).WellFormed = true ∧ (Instr.wrf 0 0).WellFormed = true ∧ (Instr.rdf 14).WellFormed = true
      ∧ (Instr.push 255).WellFormed = true ∧ (Instr.rdb 16).WellFormed = true ∧ (Instr.rdsr 3).WellFormed = true
      ∧ (Instr.wrsr 0 0xFFFF).WellFormed = true ∧ (Instr.frameCmd fieldsE6).WellFormed = true
      ∧ (Instr.frameRsp frameD9).WellFormed = true ∧ Instr.cmdSendState.WellFormed = true := by decide

theorem witness_DecodedWordIsTheEncodersWord :
    decode (.command 0x0900FFFF#32) = .ok (.wrsr 0 0xFFFF) ∧ decode (.command 0x030000FF#32) = .ok (.push 255) := by decide

/-- The first byte no row names, in each enumeration. -/
theorem witness_UnnamedByteIsUnknown :
    (∀ (kind : Enumeration) (v : Byte), (withEvents [.issue (.nameCall kind v)]).inbox = .issue (.nameCall kind v) :: [])
      ∧ (∀ m : Member, m.kind = .mode → m.value ≠ 6) ∧ (∀ m : Member, m.kind = .ctr → m.value ≠ 9)
      ∧ (∀ m : Member, m.kind = .cmd → m.value ≠ 1) := by
  refine ⟨fun _ _ => rfl, ?_, ?_, ?_⟩ <;> intro m <;> rcases m with m | m | m <;> cases m <;> decide

theorem witness_CommandImageReadsBack :
    (Instr.frameCmd fieldsE6).WellFormed = true ∧ readCommandImage frameD1 = some fieldsE6 := by decide

theorem witness_NopChangesNothing :
    (0x00000001#32 : CmdWord).extractLsb' 24 8 = 0 ∧ (0x00000001#32 : CmdWord) ≠ 0
      ∧ (withEvents [.issue (.command 0x00000001#32)]).inbox = .issue (.command 0x00000001#32) :: [] := by decide

theorem witness_WrfWritesOneField :
    (14 : Byte).toNat ≤ 14 ∧ 15 ≤ (15 : Byte).toNat ∧ 3 ≤ 14 ∧ 3 ≠ (14 : Byte).toNat
      ∧ exec (.wrf 0 0xFFFF) startE4 = .next (after (.wrf 0 0xFFFF) startE4)
      ∧ exec .enc (after (.wrf 0 0xFFFF) startE4) = .next (after .enc (after (.wrf 0 0xFFFF) startE4))
      ∧ exec .enc startE4 = .next (after .enc startE4) := ⟨by decide, by decide, by decide, by decide, rfl, rfl, rfl⟩

theorem witness_RdfReturnsTheField :
    (0 : Byte).toNat ≤ 14 ∧ (14 : Byte).toNat ≤ 14 ∧ 15 ≤ (15 : Byte).toNat ∧ (1 : Half) ≠ 0
      ∧ exec (.wrf 14 0xFFFF) (withUnit frameD1 17 true) = .next (after (.wrf 14 0xFFFF) (withUnit frameD1 17 true))
      ∧ exec .dec (withUnit frameD1 17 true) = .next (after .dec (withUnit frameD1 17 true))
      ∧ statusErr (after .dec (withUnit frameD1 17 true)).status = 0 :=
  ⟨by decide, by decide, by decide, by decide, rfl, rfl, by decide⟩

/-- `BLEN` = 0, 16, 17, 254, 255 on a canonical buffer. -/
theorem witness_PushAppendsAndCounts :
    (1 : Byte) ≠ 0 ∧ 256 ≤ (256 : Half).toNat
      ∧ (withUnit frameD1 0 true).buf.wf = true ∧ (withUnit frameD1 16 true).blen.toNat ≤ 16
      ∧ (withUnit frameD1 17 true).blen.toNat = 17 ∧ (withUnit frameD1 254 true).blen.toNat = 254
      ∧ (withUnit frameD1 255 true).blen.toNat = 255 := by decide

theorem witness_RdbReturnsTheByte :
    (0 : Byte).toNat ≤ 16 ∧ (16 : Byte).toNat ≤ 16 ∧ 17 ≤ (17 : Byte).toNat ∧ (1 : Half) ≠ 0 := by decide

theorem witness_BclrClearsTheCountOnly :
    (0x05000001#32 : CmdWord).extractLsb' 24 8 = 5 ∧ (0x05000001#32 : CmdWord) ≠ 0x05000000#32 := by decide

theorem witness_RdsrReturnsTheRegister :
    (3 : Byte).toNat ≤ 3 ∧ 4 ≤ (4 : Byte).toNat ∧ (1 : Half) ≠ 0 := by decide

theorem witness_WrsrWritesStrictOnly : (0 : Byte) = 0 ∧ (1 : Byte) ≠ 0 := by decide

theorem witness_IndexOutsideItsSpaceIsIllegal :
    (((0x020F0000#32 : CmdWord).extractLsb' 24 8).toNat = 2 ∧ 15 ≤ ((0x020F0000#32 : CmdWord).extractLsb' 16 8).toNat)
      ∧ (((0x04110000#32 : CmdWord).extractLsb' 24 8).toNat = 4 ∧ 17 ≤ ((0x04110000#32 : CmdWord).extractLsb' 16 8).toNat)
      ∧ (((0x09040000#32 : CmdWord).extractLsb' 24 8).toNat = 9 ∧ 4 ≤ ((0x09040000#32 : CmdWord).extractLsb' 16 8).toNat)
      ∧ 15 ≤ (15 : Byte).toNat ∧ 17 ≤ (17 : Byte).toNat ∧ 4 ≤ (4 : Byte).toNat ∧ 4 ≤ (255 : Byte).toNat := by decide

theorem witness_PushedUnitIsLoaded : (withUnit frameD9 5 true).buf.wf = true := by decide

/-- V-E13, V-E14, V-E10, V-E12: both sides of each bound. -/
theorem witness_FieldCheckIsWidthAndMembership :
    fieldOk 5 130 = true ∧ fieldOk 5 256 = false ∧ fieldOk 1 5 = true ∧ fieldOk 1 6 = false ∧ fieldOk 2 8 = true
      ∧ fieldOk 2 9 = false ∧ fieldOk 3 255 = true ∧ cmdValid 25 = true := by decide

theorem startE4_ok : startE4.FieldsOk := firstBad_operands_none.1 (by decide)

theorem witness_EncWritesTheFrame : startE4.buf.wf = true ∧ startE4.FieldsOk := ⟨by decide, startE4_ok⟩

/-- V-E18 (`k` = 2) and V-E16 (`k` = 14). -/
theorem witness_EncReportsTheLowestBadField :
    (∀ j, 1 ≤ j → j < 2 → fieldOk j ((withFields [(2, 9), (4, 300)]).field j) = true)
      ∧ fieldOk 2 ((withFields [(2, 9), (4, 300)]).field 2) = false
      ∧ (∀ j, 1 ≤ j → j < 14 → fieldOk j ((withFields [(14, 256)]).field j) = true)
      ∧ fieldOk 14 ((withFields [(14, 256)]).field 14) = false := by
  refine ⟨?_, by decide, ?_, by decide⟩ <;> intro j h1 h2 <;> interval_cases j <;> decide

/-- Two states that differ in `F[0]`, the buffer, `BLEN` and `CTRL`. -/
theorem witness_EncReadsOnlyTheNamedFields :
    startE4.buf.wf = true
      ∧ ({ startE4.setField 0 0xFFFF with buf := [(3, 7)], blen := 9, ctrl := 0 } : State).buf.wf = true
      ∧ (∀ k, 1 ≤ k → k ≤ 14 →
          ({ startE4.setField 0 0xFFFF with buf := [(3, 7)], blen := 9, ctrl := 0 } : State).field k = startE4.field k)
      ∧ exec .enc startE4 = .next (after .enc startE4)
      ∧ exec .enc { startE4.setField 0 0xFFFF with buf := [(3, 7)], blen := 9, ctrl := 0 }
        = .next (after .enc { startE4.setField 0 0xFFFF with buf := [(3, 7)], blen := 9, ctrl := 0 })
      ∧ statusErr (after .enc startE4).status = 0 := by
  refine ⟨by decide, by decide, ?_, rfl, rfl, by decide⟩
  intro k h1 h14
  interval_cases k <;> decide

theorem witness_EncIsIdempotent :
    startE4.buf.wf = true ∧ exec .enc startE4 = .next (after .enc startE4)
      ∧ exec .enc (after .enc startE4) = .next (after .enc (after .enc startE4)) := ⟨by decide, rfl, rfl⟩

/-- V-D13, V-D14, V-D15. -/
theorem witness_DecWrongLengthFails :
    (withUnit frameD1 0 true).blen ≠ 17 ∧ (withUnit frameD1 16 false).blen ≠ 17 ∧ (withUnit frameD1 18 true).blen ≠ 17
      ∧ (withUnit frameD1 255 true).blen ≠ 17 := by decide

/-- V-D9 and V-D10. -/
theorem witness_DecBadChecksum :
    (withUnit frameD9 17 true).blen = 17
      ∧ (withUnit frameD9 17 true).byteSum % 256 ≠ ((withUnit frameD9 17 true).byteAt 15).toNat
      ∧ (withUnit frameD9 17 true).strict = true
      ∧ (withUnit frameD9 17 false).byteSum % 256 ≠ ((withUnit frameD9 17 false).byteAt 15).toNat
      ∧ (withUnit frameD9 17 false).strict = false := by decide

/-- V-D1 (a match, strict) and V-D10 (a mismatch, tolerant). -/
theorem witness_DecDeliversTheFields :
    (withUnit frameD1 17 true).blen = 17
      ∧ (withUnit frameD1 17 true).byteSum % 256 = ((withUnit frameD1 17 true).byteAt 15).toNat
      ∧ (withUnit frameD9 17 false).blen = 17 ∧ (withUnit frameD9 17 false).strict = false := by decide

/-- V-D1 and V-D6: the stop byte differs, the fields before it too. -/
theorem witness_DecReadsOnlyTheFrame :
    ((withUnit frameD1 17 true).setByte 16 0 |>.setField 3 9).blen = (withUnit frameD1 17 true).blen
      ∧ (∀ k, k ≤ 15 →
          ((withUnit frameD1 17 true).setByte 16 0 |>.setField 3 9).byteAt k = (withUnit frameD1 17 true).byteAt k)
      ∧ ((withUnit frameD1 17 true).setByte 16 0 |>.setField 3 9).strict = (withUnit frameD1 17 true).strict
      ∧ exec .dec (withUnit frameD1 17 true) = .next (after .dec (withUnit frameD1 17 true))
      ∧ exec .dec ((withUnit frameD1 17 true).setByte 16 0 |>.setField 3 9)
        = .next (after .dec ((withUnit frameD1 17 true).setByte 16 0 |>.setField 3 9))
      ∧ statusErr (after .dec (withUnit frameD1 17 true)).status = 0 := by
  refine ⟨by decide, ?_, by decide, rfl, rfl, by decide⟩
  intro k h
  interval_cases k <;> decide

theorem witness_DecIsIdempotent :
    exec .dec (withUnit frameD9 17 false) = .next (after .dec (withUnit frameD9 17 false))
      ∧ exec .dec (after .dec (withUnit frameD9 17 false))
        = .next (after .dec (after .dec (withUnit frameD9 17 false))) := ⟨rfl, rfl⟩

theorem witness_DecAfterEncRestoresTheFields : startE4.buf.wf = true ∧ startE4.FieldsOk := ⟨by decide, startE4_ok⟩

/-- A reordering, an offset in range, a list of fifteen bytes. -/
theorem witness_ChecksumIsTheSumModulo256 :
    ([1, 2, 3] : List Byte).Perm [2, 1, 3] ∧ 14 < (List.replicate 15 (255 : Byte)).length
      ∧ (List.replicate 15 (255 : Byte)).length = 15 := ⟨List.Perm.swap 2 1 [3], by decide, by decide⟩

theorem witness_EncodedFrameHasItsConstants :
    encodeFrame (fieldList fieldsE6) = .ok frameD1 ∧ startE4.buf.wf = true
      ∧ exec .enc startE4 = .next (after .enc startE4) ∧ statusErr (after .enc startE4).status = 0 :=
  ⟨by decide, by decide, rfl, by decide⟩

/-- Valid fields; a unit that decodes, strict and tolerant, one that re-encodes and one that does not; two different
valid fields. -/
theorem witness_EncodeDecodeRoundTrip :
    (∀ k, 1 ≤ k → k ≤ 14 → fieldOk k ((fieldList fieldsE6).getD (k - 1) 0) = true)
      ∧ frameD9.length = 17
      ∧ decodeUnit frameD1 17 true = .ok { content := frameD1.take 15, crcOk := true, sum := 0xD0 }
      ∧ decodeUnit frameD9 17 false = .ok { content := frameD9.take 15, crcOk := false, sum := 0xD0 }
      ∧ encodeFrame (fieldList fieldsE6) = .ok frameD1
      ∧ encodeFrame (fieldList { fieldsE6 with d0 := 5 })
        = .ok [0xAB, 1, 0, 0, 7, 0x19, 0, 5, 0, 0, 0, 0, 0, 0, 0, 0xD1, 0xAC]
      ∧ fieldsE6 ≠ { fieldsE6 with d0 := 5 } := by
  refine ⟨?_, by decide⟩
  intro k h1 h14
  interval_cases k <;> decide

/-- V-E6 for the first clause, V-E18 (`k` = 2) for the second. -/
theorem witness_EncodeCallAnswersTheFrame :
    (∀ k, 1 ≤ k → k ≤ 14 → fieldOk k ((fieldList fieldsE6).getD (k - 1) 0) = true)
      ∧ (∀ j, 1 ≤ j → j < 2 → fieldOk j ((fieldList fieldsE18).getD (j - 1) 0) = true)
      ∧ fieldOk 2 ((fieldList fieldsE18).getD (2 - 1) 0) = false := by
  refine ⟨?_, ?_, by decide⟩
  · intro k h1 h14
    interval_cases k <;> decide
  · intro j h1 h2
    interval_cases j
    decide

/-- V-D14 (a byte short), V-D9, V-D1 and V-D10. -/
theorem witness_DecodeCallAnswersTheContent :
    (frameD1.take 16).length ≠ 17
      ∧ (frameD9.length = 17 ∧ ((frameD9.take 15).map BitVec.toNat).sum % 256 ≠ (frameD9.getD 15 0).toNat
        ∧ State.reset.strict = true)
      ∧ ((frameD1.take 15).map BitVec.toNat).sum % 256 = (frameD1.getD 15 0).toNat
      ∧ (withUnit [] 0 false).strict = false := by decide

theorem witness_OnlyEncAndDecWriteStatus :
    exec (.push 7) startE4 = .next (after (.push 7) startE4) ∧ Instr.push 7 ≠ .enc ∧ Instr.push 7 ≠ .dec :=
  ⟨rfl, by decide, by decide⟩

/-- ENC among them. -/
theorem witness_OnlyWrfAndDecWriteFields :
    exec .enc startE4 = .next (after .enc startE4) ∧ (∀ idx imm, Instr.enc ≠ .wrf idx imm) ∧ Instr.enc ≠ .dec :=
  ⟨rfl, by simp, by decide⟩

/-- A failed ENC among them. -/
theorem witness_OnlyPushAndEncWriteTheBuffer :
    exec .enc (withFields [(2, 9)]) = .next (after .enc (withFields [(2, 9)])) ∧ (∀ b, Instr.enc ≠ .push b)
      ∧ statusErr (after .enc (withFields [(2, 9)])).status ≠ 0 := ⟨rfl, by simp, by decide⟩

theorem witness_OnlyBclrPushEncWriteBlen :
    exec .dec (withUnit frameD1 17 true) = .next (after .dec (withUnit frameD1 17 true)) ∧ (∀ b, Instr.dec ≠ .push b)
      ∧ Instr.dec ≠ .bclr ∧ Instr.dec ≠ .enc := ⟨rfl, by simp, by decide, by decide⟩

/-- A DEC of the wrong length among them. -/
theorem witness_OnlyEncAndFullDecWriteCsum :
    exec .dec (withUnit frameD1 16 true) = .next (after .dec (withUnit frameD1 16 true)) ∧ Instr.dec ≠ .enc
      ∧ (withUnit frameD1 16 true).blen ≠ 17 := ⟨rfl, by decide, by decide⟩

theorem witness_OnlyWrsrWritesCtrl :
    exec .dec (withUnit frameD1 17 true) = .next (after .dec (withUnit frameD1 17 true))
      ∧ ∀ idx v, Instr.dec ≠ .wrsr idx v := ⟨rfl, by simp⟩

theorem witness_ReadsHaveNoSideEffect :
    Instr.rdb 16 = .rdf 16 ∨ Instr.rdb 16 = .rdb 16 ∨ Instr.rdb 16 = .rdsr 16 := by decide

theorem witness_FirstCommandAfterReset :
    (14 : Byte).toNat ≤ 14 ∧ (16 : Byte).toNat ≤ 16 ∧ ((3 : Byte) = 1 ∨ (3 : Byte) = 2 ∨ (3 : Byte) = 3) := by decide

/-- From `BLEN` = 18: a reset, a BCLR, an ENC. -/
theorem witness_OnlyBclrResetEncLowerBlen :
    [HostEvent.reset, .issue (.command 0x05000000#32), .issue (.command 0x06000000#32)].all (fun e =>
        decide ((afterStep { withUnit frameD1 18 true with inbox := [e] }).blen.toNat
          < ({ withUnit frameD1 18 true with inbox := [e] } : State).blen.toNat)) = true
      ∧ ∀ e, step { withUnit frameD1 18 true with inbox := [e] }
          = .next (afterStep { withUnit frameD1 18 true with inbox := [e] }) := by
  refine ⟨by decide, fun e => ?_⟩
  rcases step_cases { withUnit frameD1 18 true with inbox := [e] } with ⟨-, h⟩ | ⟨_, -, h⟩ | ⟨_, _, i, -, -, h⟩ | ⟨_, _, _, -, -, h⟩
  · simp only [afterStep, h]
  · simp only [afterStep, h]
  · obtain ⟨t, -, ht, -⟩ := exec_answers i ({ withUnit frameD1 18 true with inbox := [e] } : State).takeEvent
    simp only [afterStep, h, ht]
  · simp only [afterStep, h]

/-- One row of each width. -/
theorem witness_PlacedRowRunsNext :
    decodeTableWord 8 130 = some .cmdSendState ∧ decodeTableWord 32 0x07000000 = some .dec
      ∧ decodeTableWord 136 0xAB0100000719000400000000000000D1AC = some (.frameRsp frameD9) := by decide

end Sys2Proof.Tests
end

section
/-! The step and the host's events (00_scope.md R9, R35, R80): what the block finds at its interface, what a step then
does, and the request a placed table row spells. -/

namespace Sys2Proof.Machine

/-! ### What the block finds -/

theorem fetch_of_inbox_nil {s : State} (hin : s.inbox = []) : fetch s = .idle := by
  simp [fetch, hin]

theorem fetch_of_decode_ok {s : State} {r : Request} {rest : List HostEvent} {i : Instr}
    (hin : s.inbox = .issue r :: rest) (hdec : decode r = .ok i) : fetch s = .run i := by
  simp [fetch, hin, hdec]

theorem State.takeEvent_of_inbox_cons {s : State} {e : HostEvent} {rest : List HostEvent} (hin : s.inbox = e :: rest) :
    s.takeEvent = { s with inbox := rest } := by
  simp [State.takeEvent, hin]

/-! ### What a step does with it -/

theorem step_of_fetch_idle {s : State} (hf : fetch s = .idle) : step s = .next s := by
  simp [step, hf]

theorem step_of_fetch_run {s : State} {i : Instr} (hf : fetch s = .run i) : step s = exec i s.takeEvent := by
  simp [step, hf]

/-- Settles O1: the fetch finds the decoded instruction, and the state it runs in differs by the one event taken. -/
theorem stepRunsTheDecodedInstruction : Obligations.StepRunsTheDecodedInstruction := by
  intro s r rest i hin hdec
  calc step s = exec i s.takeEvent := step_of_fetch_run (fetch_of_decode_ok hin hdec)
    _ = exec i { s with inbox := rest } := by rw [State.takeEvent_of_inbox_cons hin]

/-- Settles O3: the fetch finds an idle host. -/
theorem idleBlockWaits : Obligations.IdleBlockWaits :=
  fun _ hin => step_of_fetch_idle (fetch_of_inbox_nil hin)

/-! ### A placed row of the opcode table -/

theorem decodeTableWord_eq_some_iff {nbits w : Nat} {i : Instr} :
    decodeTableWord nbits w = some i ↔ decode (tableRequest nbits w) = .ok i := by
  unfold decodeTableWord
  cases decode (tableRequest nbits w) <;> simp

@[simp] theorem State.withFetchWord_inbox (s : State) (nbits w : Nat) :
    (s.withFetchWord nbits w).inbox = .issue (tableRequest nbits w) :: s.inbox := rfl

/-- Placing a row moves nothing but the host's list, so taking its event off gives the state before. -/
@[simp] theorem State.withFetchWord_takeEvent (s : State) (nbits w : Nat) :
    (s.withFetchWord nbits w).takeEvent = s := rfl

/-- Settles O54: the placed row is the next request, so the step runs what it decodes to, in the state before the
placing. -/
theorem placedRowRunsNext : Obligations.PlacedRowRunsNext := by
  intro s nbits w i hrow
  have hf : fetch (s.withFetchWord nbits w) = .run i :=
    fetch_of_decode_ok (s.withFetchWord_inbox nbits w) (decodeTableWord_eq_some_iff.1 hrow)
  calc step (s.withFetchWord nbits w) = exec i (s.withFetchWord nbits w).takeEvent := step_of_fetch_run hf
    _ = exec i s := by rw [State.withFetchWord_takeEvent]

end Sys2Proof.Machine
end

section
/-! The fields of `STATUS` read back, and the legality of the words the block writes and answers (10_state.md R16, R19,
R20; 30_encoding.md R51). -/

namespace Sys2Proof.Machine

/-! ### `STATUS` field by field -/

section StatusWord

variable (last err : BitVec 2) (lenOk crcOk : Bool) (eidx : BitVec 4)

@[simp] theorem statusLast_statusWord : statusLast (statusWord last err lenOk crcOk eidx) = last := by
  apply BitVec.eq_of_toNat_eq
  have := last.isLt
  simp only [statusLast, BitVec.extractLsb'_toNat, Nat.shiftRight_eq_div_pow, statusWord_toNat]
  omega

@[simp] theorem statusErr_statusWord : statusErr (statusWord last err lenOk crcOk eidx) = err := by
  apply BitVec.eq_of_toNat_eq
  have := last.isLt; have := err.isLt
  simp only [statusErr, BitVec.extractLsb'_toNat, Nat.shiftRight_eq_div_pow, statusWord_toNat]
  omega

@[simp] theorem statusLenOk_statusWord : statusLenOk (statusWord last err lenOk crcOk eidx) = lenOk := by
  have := last.isLt; have := err.isLt
  simp only [statusLenOk, BitVec.getLsbD, Nat.testBit_eq_decide_div_mod_eq, statusWord_toNat]
  cases lenOk <;> simp only [Bool.toNat_true, Bool.toNat_false, decide_eq_true_eq, decide_eq_false_iff_not] <;> omega

@[simp] theorem statusCrcOk_statusWord : statusCrcOk (statusWord last err lenOk crcOk eidx) = crcOk := by
  have := last.isLt; have := err.isLt; have := Bool.toNat_le lenOk
  simp only [statusCrcOk, BitVec.getLsbD, Nat.testBit_eq_decide_div_mod_eq, statusWord_toNat]
  cases crcOk <;> simp only [Bool.toNat_true, Bool.toNat_false, decide_eq_true_eq, decide_eq_false_iff_not] <;> omega

@[simp] theorem statusEidx_statusWord : statusEidx (statusWord last err lenOk crcOk eidx) = eidx := by
  apply BitVec.eq_of_toNat_eq
  have := last.isLt; have := err.isLt; have := eidx.isLt
  have := Bool.toNat_le lenOk; have := Bool.toNat_le crcOk
  simp only [statusEidx, BitVec.extractLsb'_toNat, Nat.shiftRight_eq_div_pow, statusWord_toNat]
  omega

@[simp] theorem statusReserved_statusWord : statusReserved (statusWord last err lenOk crcOk eidx) = 0 := by
  apply BitVec.eq_of_toNat_eq
  have := last.isLt; have := err.isLt; have := eidx.isLt
  have := Bool.toNat_le lenOk; have := Bool.toNat_le crcOk
  simp only [statusReserved, BitVec.extractLsb'_toNat, Nat.shiftRight_eq_div_pow, statusWord_toNat,
    BitVec.ofNat_eq_ofNat, BitVec.toNat_ofNat]
  omega

end StatusWord

/-- Settles O18: each field's own read-back, one after the other. -/
theorem statusFieldsReadBack : Obligations.StatusFieldsReadBack := fun last err lenOk crcOk eidx =>
  ⟨statusLast_statusWord last err lenOk crcOk eidx, statusErr_statusWord last err lenOk crcOk eidx,
    statusLenOk_statusWord last err lenOk crcOk eidx, statusCrcOk_statusWord last err lenOk crcOk eidx,
    statusEidx_statusWord last err lenOk crcOk eidx, statusReserved_statusWord last err lenOk crcOk eidx⟩

/-! ### Legal words -/

theorem statusLegal_reset : StatusLegal 0 := by
  unfold StatusLegal
  decide

theorem statusLegal_encOk : StatusLegal (statusWord lastEnc errNone false false 0) := by
  unfold StatusLegal
  decide

/-- An offset of a named field fits `EIDX`, and is neither 0 nor 15 there (R19, R76). -/
theorem statusLegal_encBad {k : Nat} (h1 : 1 ≤ k) (h14 : k ≤ 14) :
    StatusLegal (statusWord lastEnc errEncodeRange false false (BitVec.ofNat 4 k)) := by
  have h0 : BitVec.ofNat 4 k ≠ 0 := by bv_omega
  have h15 : BitVec.ofNat 4 k ≠ 15 := by bv_omega
  simp only [StatusLegal, statusReserved_statusWord, statusLast_statusWord, statusErr_statusWord,
    statusEidx_statusWord, statusLenOk_statusWord, statusCrcOk_statusWord]
  exact ⟨trivial, by decide, by decide, fun h => absurd h (by decide), fun _ => trivial, fun h => absurd h (by decide),
    ⟨fun _ => h0, fun _ => trivial⟩, h15, Bool.noConfusion, Bool.noConfusion⟩

theorem statusLegal_decBad (lenOk : Bool) : StatusLegal (statusWord lastDec errMalformed lenOk false 0) := by
  unfold StatusLegal
  cases lenOk <;> decide

theorem statusLegal_decOk (crcOk : Bool) : StatusLegal (statusWord lastDec errNone true crcOk 0) := by
  unfold StatusLegal
  cases crcOk <;> decide

theorem responseLegal_responseWord {code : Byte} {data : Half} (hc : code ≤ 3) (hd : code ≠ 0 → data = 0) :
    ResponseLegal (responseWord code data) := by
  simp only [ResponseLegal, responseWord_code, responseWord_zero, responseWord_data]
  exact ⟨hc, trivial, hd⟩

theorem responseLegal_return (v : Half) : ResponseLegal (responseWord 0 v) :=
  responseLegal_responseWord (by decide) (fun h => absurd rfl h)

theorem responseLegal_raise (e : CodecError) : ResponseLegal (responseWord e.code 0) :=
  responseLegal_responseWord (by cases e <;> simp [CodecError.code]) (fun _ => rfl)

end Sys2Proof.Machine
end

section
/-! The invariant of the state, one rule per operation on the state (10_state.md R16, R20, R22; 20_memory.md R25). -/

namespace Sys2Proof.Machine

variable {s t : State}

/-- The invariant speaks of the buffer, `CTRL`, `STATUS` and the answers, and of nothing else. -/
theorem State.Inv.congr (h : s.Inv) (hbuf : t.buf = s.buf) (hctrl : t.ctrl = s.ctrl) (hstatus : t.status = s.status)
    (hout : t.outbox = s.outbox) : t.Inv :=
  ⟨hbuf ▸ h.buf_wf, hctrl ▸ h.ctrl_legal, hstatus ▸ h.status_legal, hout ▸ h.answers_legal⟩

theorem State.Inv.setField (h : s.Inv) (i : Nat) (v : Half) : (s.setField i v).Inv := h.congr rfl rfl rfl rfl
theorem State.Inv.setFields (h : s.Inv) (g : List Byte) : (s.setFields g).Inv := h.congr rfl rfl rfl rfl
theorem State.Inv.setBlen (h : s.Inv) (v : Byte) : (s.setBlen v).Inv := h.congr rfl rfl rfl rfl
theorem State.Inv.setCsum (h : s.Inv) (v : Byte) : (s.setCsum v).Inv := h.congr rfl rfl rfl rfl
theorem State.Inv.takeEvent (h : s.Inv) : s.takeEvent.Inv := h.congr rfl rfl rfl rfl

theorem State.Inv.setFrame (h : s.Inv) {b : List Byte} (hb : b.length = 17) : (s.setFrame b).Inv :=
  ⟨Memory.writeFrom_wf h.buf_wf 0 b (by omega), h.ctrl_legal, h.status_legal, h.answers_legal⟩

theorem State.Inv.setStatus (h : s.Inv) {w : Half} (hw : StatusLegal w) : (s.setStatus w).Inv :=
  ⟨h.buf_wf, h.ctrl_legal, hw, h.answers_legal⟩

theorem State.Inv.writeCtrl (h : s.Inv) (v : Half) : (s.writeCtrl v).Inv :=
  ⟨h.buf_wf, ctrlOfWrite_reserved v, h.status_legal, h.answers_legal⟩

theorem State.Inv.pushStore (h : s.Inv) (b : Byte) : (pushStore b s).Inv :=
  ⟨pushStore_wf h.buf_wf b, by simpa using h.ctrl_legal, by simpa using h.status_legal,
    by simpa using h.answers_legal⟩

theorem State.Inv.pushCount (h : s.Inv) : (pushCount s).Inv :=
  h.congr pushCount_buf pushCount_ctrl pushCount_status pushCount_outbox

theorem State.Inv.deliver (h : s.Inv) {a : Answer} (ha : AnswerLegal a) : (s.deliver a).Inv :=
  ⟨h.buf_wf, h.ctrl_legal, h.status_legal,
    List.forall_mem_append.2 ⟨h.answers_legal, List.forall_mem_singleton.2 ha⟩⟩

theorem State.Inv.respond (h : s.Inv) (v : Half) : (s.respond v).Inv := h.deliver (responseLegal_return v)

theorem State.Inv.raise (h : s.Inv) (e : CodecError) : (s.raise e).Inv := h.deliver (responseLegal_raise e)

/-- Settles O10: an empty buffer, `CTRL` = 1 and `STATUS` = 0 are legal, and nothing is answered yet. -/
theorem resetStateLegal : Obligations.ResetStateLegal where
  buf_wf := rfl
  ctrl_legal := rfl
  status_legal := statusLegal_reset
  answers_legal := fun _ ha => absurd ha List.not_mem_nil

/-- Reset keeps the answers already given and brings everything else to its reset value (R89). -/
theorem State.Inv.resetBlock (h : s.Inv) : s.resetBlock.Inv :=
  ⟨resetStateLegal.buf_wf, resetStateLegal.ctrl_legal, resetStateLegal.status_legal, h.answers_legal⟩

/-- Settles O5: `F` is fifteen zeros, the empty buffer reads 0 everywhere, the other registers stand as written. -/
theorem resetStateValues : Obligations.ResetStateValues := by
  refine ⟨fun i hi => ?_, fun k _ => Memory.read_nil k, rfl, rfl, rfl, rfl, rfl⟩
  have hi' : i < 15 := by omega
  simp [State.field, State.reset, hi']

/-- Settles O11: offsets above 16 are listed in neither buffer, so the two read the same everywhere, and canonical
buffers that do are the same list. -/
theorem equalBytesAreEqualBuffers : Obligations.EqualBytesAreEqualBuffers := by
  intro s t hs ht hbytes
  refine Memory.ext_of_read hs.buf_wf ht.buf_wf fun k => ?_
  rcases Nat.lt_or_ge k 17 with hin | hout
  · exact hbytes k (by omega)
  · rw [Memory.read_above hs.buf_wf hout, Memory.read_above ht.buf_wf hout]

end Sys2Proof.Machine
end

section
/-! Everything an instruction can do to the state, said once (40_codec_ops.md R63, R65; 41_access_ops.md R67 to R74),
and what follows of it about who writes which register. -/

namespace Sys2Proof.Machine

/-- The effects an instruction can have on the state `s`: a legal answer alone, which any instruction may give as far as
the statements below need to know, or one of the writes, each with the instruction that makes it. -/
inductive ExecEffect (s : State) : Instr → State → Prop where
  | answer {i : Instr} {a : Answer} (ha : AnswerLegal a) : ExecEffect s i (s.deliver a)
  | wrf (idx : Byte) (imm : Half) : ExecEffect s (.wrf idx imm) ((s.setField idx.toNat imm).respond 0)
  | push (b : Byte) : ExecEffect s (.push b) ((pushCount (pushStore b s)).respond 0)
  | bclr : ExecEffect s .bclr ((s.setBlen 0).respond 0)
  | wrsr (idx : Byte) (v : Half) : ExecEffect s (.wrsr idx v) ((s.writeCtrl v).respond 0)
  | encDone {b : List Byte} (hb : b.length = 17) : ExecEffect s .enc (encDone b s)
  | encFail {k : Nat} (h1 : 1 ≤ k) (h14 : k ≤ 14) : ExecEffect s .enc (encFail k s)
  | decFailLength : ExecEffect s .dec (decFailLength s)
  | decFailChecksum (c : Byte) (hlen : s.blen = 17) : ExecEffect s .dec (decFailChecksum c s)
  | decDone (d : Decoded) (hlen : s.blen = 17) : ExecEffect s .dec (decDone d s)

variable {s t : State} {i : Instr}

theorem ExecEffect.respond (v : Half) : ExecEffect s i (s.respond v) := .answer (responseLegal_return v)

theorem ExecEffect.raiseIllegal : ExecEffect s i s.raiseIllegal := .answer (responseLegal_raise .illegalOperation)

/-- A read answers its value, or IllegalOperation where the index is outside its space (R27). -/
theorem ExecEffect.of_read {inRange : Bool} {v : Half}
    (h : (if inRange then .next (s.respond v) else .next s.raiseIllegal : Host.Outcome State Fault Refusal) = .next t) :
    ExecEffect s i t := by
  split at h <;> cases h
  · exact .respond v
  · exact .raiseIllegal

theorem execEnc_effect (h : execEnc s = .next t) : ExecEffect s .enc t := by
  obtain ⟨-, b, rfl, rfl⟩ | ⟨k, hk, rfl⟩ := execEnc_cases h
  · exact .encDone (frameOf_length s.operands_length)
  · obtain ⟨h1, h14, -, -⟩ := firstBad_operands.1 hk
    exact .encFail h1 h14

theorem execDec_effect (h : execDec s = .next t) : ExecEffect s .dec t := by
  obtain ⟨g, c, -, -, ⟨-, hd⟩ | ⟨hlen, -, -, hd⟩ | ⟨hlen, -, hd⟩⟩ := execDec_cases s <;> rw [hd] at h <;> cases h
  · exact .decFailLength
  · exact .decFailChecksum c hlen
  · exact .decDone _ hlen

/-- Encode's answer is a frame of seventeen bytes or an error that is not IllegalOperation (R39, R58). -/
theorem execFrameCmd_effect {f : NamedFields} (h : execFrameCmd f s = .next t) : ExecEffect s i t := by
  unfold execFrameCmd at h
  split at h <;> cases h
  next k _ => exact .answer (a := .raised (.encodeRange k)) CodecError.noConfusion
  next b hb =>
    obtain ⟨-, rfl⟩ := encodeFrame_ok.1 hb
    exact .answer (a := .encoded _) (frameOf_length (fieldList_length f))

/-- Decode's answer is fifteen content bytes or an error that is not IllegalOperation (R41, R60). -/
theorem execFrameRsp_effect {b : List Byte} (h : execFrameRsp b s = .next t) : ExecEffect s i t := by
  unfold execFrameRsp at h
  obtain ⟨-, hd⟩ | ⟨-, -, -, hd⟩ | ⟨hlen, -, hd⟩ := decodeUnit_cases b b.length s.strict <;> rw [hd] at h <;> cases h
  · exact .answer (a := .raised .malformedLength) CodecError.noConfusion
  · exact .answer (a := .raised (.malformedChecksum _)) CodecError.noConfusion
  · exact .answer (a := .decoded _) (by simp [AnswerLegal, hlen])

theorem nameMember_effect {m : Member} (h : nameMember m s = .next t) : ExecEffect s i t := by
  cases h
  exact .answer (a := .member m _ _) ⟨rfl, rfl⟩

/-- Everything an instruction can do. -/
theorem exec_effect (h : exec i s = .next t) : ExecEffect s i t := by
  cases i with
  | nop => cases h; exact .respond 0
  | rdf _ => exact .of_read h
  | rdb _ => exact .of_read h
  | rdsr _ => exact .of_read h
  | wrf idx imm =>
    simp only [exec, execWrf] at h
    split at h <;> cases h
    · exact .wrf idx imm
    · exact .raiseIllegal
  | wrsr idx v =>
    simp only [exec, execWrsr] at h
    split at h <;> cases h
    · exact .wrsr idx v
    · exact .raiseIllegal
  | push b => cases h; exact .push b
  | bclr => cases h; exact .bclr
  | enc => exact execEnc_effect h
  | dec => exact execDec_effect h
  | frameCmd f => exact execFrameCmd_effect h
  | frameRsp b => exact execFrameRsp_effect h
  | _ => exact nameMember_effect h

/-! ### Who writes what -/

/-- Settles O46: of all effects only those of ENC and DEC write `STATUS`. -/
theorem onlyEncAndDecWriteStatus : Obligations.OnlyEncAndDecWriteStatus := by
  intro i s t h henc hdec
  cases exec_effect h with
  | encDone _ | encFail _ _ => exact absurd rfl henc
  | decFailLength | decFailChecksum _ _ | decDone _ _ => exact absurd rfl hdec
  | push b => simp
  | _ => rfl

/-- Settles O47: of all effects only those of WRF and a successful DEC write `F`. -/
theorem onlyWrfAndDecWriteFields : Obligations.OnlyWrfAndDecWriteFields := by
  intro i s t h hwrf hdec k _
  refine State.field_of_f ?_ k
  cases exec_effect h with
  | wrf idx imm => exact absurd rfl (hwrf idx imm)
  | decDone _ _ => exact absurd rfl hdec
  | push b => simp
  | _ => rfl

/-- What tells a successful ENC from a failed one afterwards: `STATUS.ERR` is 0 (R63). -/
theorem encDone_statusErr (b : List Byte) : statusErr (encDone b s).status = 0 :=
  statusErr_statusWord lastEnc errNone false false 0

/-- Settles O49: of all effects only those of PUSH, BCLR and a successful ENC write `BLEN`. -/
theorem onlyBclrPushEncWriteBlen : Obligations.OnlyBclrPushEncWriteBlen := by
  intro i s t h hpush hbclr henc
  cases exec_effect h with
  | push b => exact absurd rfl (hpush b)
  | bclr => exact absurd rfl hbclr
  | encDone _ => exact absurd (encDone_statusErr _) (henc rfl)
  | _ => rfl

/-- Settles O50: of all effects only those of a successful ENC and of a DEC of seventeen bytes write `CSUM`. -/
theorem onlyEncAndFullDecWriteCsum : Obligations.OnlyEncAndFullDecWriteCsum := by
  intro i s t h henc hdec
  cases exec_effect h with
  | encDone _ => exact absurd (encDone_statusErr _) (henc rfl)
  | decFailChecksum _ hlen | decDone _ hlen => exact absurd hlen (hdec rfl)
  | push b => simp
  | _ => rfl

/-- Settles O51: of all effects only that of WRSR writes `CTRL`. -/
theorem onlyWrsrWritesCtrl : Obligations.OnlyWrsrWritesCtrl := by
  intro i s t h hwrsr
  cases exec_effect h with
  | wrsr idx v => exact absurd rfl (hwrsr idx v)
  | push b => simp
  | _ => rfl

/-! ### Every step keeps the invariant -/

/-- Every effect keeps the invariant: each is a composition of operations that do. -/
theorem ExecEffect.keeps_inv (he : ExecEffect s i t) (h : s.Inv) : t.Inv := by
  cases he with
  | answer ha => exact h.deliver ha
  | wrf idx imm => exact (h.setField idx.toNat imm).respond 0
  | push b => exact (h.pushStore b).pushCount.respond 0
  | bclr => exact (h.setBlen 0).respond 0
  | wrsr _ v => exact (h.writeCtrl v).respond 0
  | encDone hb => exact ((((h.setFrame hb).setBlen 17).setCsum _).setStatus statusLegal_encOk).respond 0
  | encFail h1 h14 => exact (h.setStatus (statusLegal_encBad h1 h14)).raise _
  | decFailLength => exact (h.setStatus (statusLegal_decBad false)).raise _
  | decFailChecksum c _ => exact ((h.setCsum c).setStatus (statusLegal_decBad true)).raise _
  | decDone d _ => exact (((h.setFields _).setCsum _).setStatus (statusLegal_decOk d.crcOk)).respond 0

/-- A rejected request is answered, legally: the decoder says that a byte has no name only where no row names it. -/
theorem reject_eq_deliver {r : Request} {why : Reject} (hdec : decode r = .error why) (s : State) :
    ∃ a, AnswerLegal a ∧ s.reject why = s.deliver a := by
  cases r with
  | command w => exact ⟨.response _, responseLegal_raise .illegalOperation, reject_command hdec s⟩
  | encodeCall f => cases hdec
  | decodeCall b => cases hdec
  | nameCall kind v =>
    simp only [decode, decodeName] at hdec
    split at hdec <;> cases hdec
    next hnone => exact ⟨.noName kind v _, hnone, rfl⟩

/-- Settles O9: a step waits, resets, runs an instruction or answers a rejection, and each keeps the invariant. -/
theorem stepKeepsStateLegal : Obligations.StepKeepsStateLegal := by
  intro s t hs h
  obtain ⟨-, hst⟩ | ⟨_, -, hst⟩ | ⟨_, _, _, -, -, hst⟩ | ⟨_, _, _, -, hdec, hst⟩ := step_cases s <;> rw [hst] at h
  · cases h; exact hs
  · cases h; exact hs.takeEvent.resetBlock
  · exact (exec_effect h).keeps_inv hs.takeEvent
  · cases h
    obtain ⟨a, ha, hrej⟩ := reject_eq_deliver hdec s.takeEvent
    exact hrej ▸ hs.takeEvent.deliver ha

end Sys2Proof.Machine
end

section
/-! A request that decodes is the encoder's request of its instruction (30_encoding.md R49, R50, R54), and with it what can
bring `BLEN` down (10_state.md R17; 41_access_ops.md R72). -/

namespace Sys2Proof

/-! ### What each form of the decoder accepts -/

variable {i j : Instr} {inRange : Bool} {idx : Byte} {imm : Half}

theorem decodePlain_eq_ok_iff : decodePlain i idx imm = .ok j ↔ idx = 0 ∧ imm = 0 ∧ j = i := by
  unfold decodePlain
  split <;> grind

theorem decodeIndexed_eq_ok_iff :
    decodeIndexed i inRange idx imm = .ok j ↔ inRange = true ∧ imm = 0 ∧ j = i := by
  unfold decodeIndexed
  cases inRange <;> split <;> grind

theorem decodePush_eq_ok_iff :
    decodePush idx imm = .ok j ↔ idx = 0 ∧ imm.toNat ≤ 255 ∧ j = .push (Machine.lowByte imm) := by
  unfold decodePush
  simp only [Machine.highByte_zero_iff]
  split <;> grind

theorem decodeWrf_eq_ok_iff : decodeWrf idx imm = .ok j ↔ Machine.fieldIndexOk idx = true ∧ j = .wrf idx imm := by
  unfold decodeWrf
  split <;> grind

theorem decodeWrsr_eq_ok_iff :
    decodeWrsr idx imm = .ok j ↔ Machine.sysRegWritable idx = true ∧ j = .wrsr idx imm := by
  unfold decodeWrsr
  split <;> grind

/-! ### Decoded requests are encoded ones -/

theorem commandWord_eq_of_fields {w : CmdWord} {op : Byte} (hop : (opField w).toNat = op.toNat)
    (hidx : idxField w = idx) (himm : immField w = imm) : commandWord op idx imm = w := by
  rw [← BitVec.eq_of_toNat_eq hop, ← hidx, ← himm, commandWord_fields]

/-- An operation that uses neither `idx` nor `imm` leaves `op` alone free in its word (R50). -/
theorem encode_of_decodePlain {w : CmdWord} {op : Byte} (hop : (opField w).toNat = op.toNat)
    (henc : encode i = .command (commandWord op 0 0)) (h : decodePlain i (idxField w) (immField w) = .ok j) :
    encode j = .command w := by
  obtain ⟨hidx, himm, rfl⟩ := decodePlain_eq_ok_iff.1 h
  rw [henc, commandWord_eq_of_fields hop hidx himm]

/-- An operation that reads at `idx` leaves `op` and `idx` free in its word (R50). -/
theorem encode_of_decodeIndexed {w : CmdWord} {op : Byte} (hop : (opField w).toNat = op.toNat)
    (henc : encode i = .command (commandWord op (idxField w) 0))
    (h : decodeIndexed i inRange (idxField w) (immField w) = .ok j) : encode j = .command w := by
  obtain ⟨-, himm, rfl⟩ := decodeIndexed_eq_ok_iff.1 h
  rw [henc, commandWord_eq_of_fields hop rfl himm]

/-- A command word that decodes has each of its three fields as the encoder writes it (R50, R54); the arms stand in the
order of `op`, 0 to 9 and the undefined ones. -/
theorem encode_of_decodeWord {w : CmdWord} (h : decodeWord w = .ok i) : encode i = .command w := by
  simp only [decodeWord] at h
  split at h
  next hop => exact encode_of_decodePlain (op := 0x00) hop rfl h
  next hop =>
    obtain ⟨-, rfl⟩ := decodeWrf_eq_ok_iff.1 h
    exact congrArg Request.command (commandWord_eq_of_fields hop rfl rfl)
  next hop => exact encode_of_decodeIndexed (op := 0x02) hop rfl h
  next hop =>
    obtain ⟨hidx, himm, rfl⟩ := decodePush_eq_ok_iff.1 h
    exact congrArg Request.command (commandWord_eq_of_fields hop hidx (Machine.zext16_lowByte himm).symm)
  next hop => exact encode_of_decodeIndexed (op := 0x04) hop rfl h
  next hop => exact encode_of_decodePlain (op := 0x05) hop rfl h
  next hop => exact encode_of_decodePlain (op := 0x06) hop rfl h
  next hop => exact encode_of_decodePlain (op := 0x07) hop rfl h
  next hop => exact encode_of_decodeIndexed (op := 0x08) hop rfl h
  next hop =>
    obtain ⟨-, rfl⟩ := decodeWrsr_eq_ok_iff.1 h
    exact congrArg Request.command (commandWord_eq_of_fields hop rfl rfl)
  next => cases h

theorem encode_of_mem_enumRows : ∀ r ∈ enumRows, encode r.2 = .nameCall r.1.kind r.1.value := by decide

theorem findName_eq_some {kind : Enumeration} {v : Byte} (h : findName kind v = some i) :
    ∃ m, (m, i) ∈ enumRows ∧ m.kind = kind ∧ m.value = v := by
  obtain ⟨⟨m, _⟩, hfind, rfl⟩ := Option.map_eq_some_iff.1 h
  have hm := List.find?_some hfind
  simp only [Bool.and_eq_true, decide_eq_true_eq] at hm
  exact ⟨m, List.mem_of_find?_eq_some hfind, hm⟩

/-- An enumeration byte that decodes is looked up in the enumeration, and at the value, of its row (R48). -/
theorem encode_of_decodeName {kind : Enumeration} {v : Byte} (h : decodeName kind v = .ok i) :
    encode i = .nameCall kind v := by
  unfold decodeName at h
  split at h <;> cases h
  next hfind =>
    obtain ⟨m, hmem, rfl, rfl⟩ := findName_eq_some hfind
    exact encode_of_mem_enumRows _ hmem

theorem encode_of_decode {r : Request} (h : decode r = .ok i) : encode i = r := by
  cases r with
  | command w => exact encode_of_decodeWord h
  | encodeCall f => cases h; rfl
  | decodeCall b => cases h; rfl
  | nameCall kind v => exact encode_of_decodeName h

namespace Machine

/-! ### What brings `BLEN` down -/

variable {s t : State}

/-- Of all effects only those of BCLR and a successful ENC can lower `BLEN`: PUSH raises it or leaves it at 255 (R70). -/
theorem ExecEffect.of_blen_lt (he : ExecEffect s i t) (hlt : t.blen.toNat < s.blen.toNat) :
    (i = .bclr ∧ t.blen = 0) ∨ (i = .enc ∧ t.blen = 17 ∧ statusErr t.status = 0) := by
  cases he with
  | push b =>
    have hcount := pushCount_toNat (s := pushStore b s)
    have hmax := s.blen.isLt
    rw [pushStore_blen] at hcount
    rw [State.respond_blen, hcount] at hlt
    omega
  | bclr => exact .inl ⟨rfl, rfl⟩
  | encDone _ => exact .inr ⟨rfl, rfl, encDone_statusErr _⟩
  | _ => exact absurd hlt (Nat.lt_irrefl _)

theorem encode_bclr : encode .bclr = .command 0x05000000#32 := by decide

theorem encode_enc : encode .enc = .command 0x06000000#32 := by decide

/-- Settles O55: a wait and a rejection leave `BLEN` alone, and the instruction that lowers it, BCLR or ENC, was spelt by
its one command word. -/
theorem onlyBclrResetEncLowerBlen : Obligations.OnlyBclrResetEncLowerBlen := by
  intro s t h hlt
  obtain ⟨-, hst⟩ | ⟨rest, hin, hst⟩ | ⟨r, rest, i, hin, hdec, hst⟩ | ⟨r, rest, why, -, hdec, hst⟩ := step_cases s
    <;> rw [hst] at h
  · cases h
    exact absurd hlt (Nat.lt_irrefl _)
  · cases h
    exact .inl ⟨rest, hin, rfl⟩
  · right
    rw [← encode_of_decode hdec] at hin
    obtain ⟨rfl, h0⟩ | ⟨rfl, h17, herr⟩ := (exec_effect h).of_blen_lt hlt
    · exact .inl ⟨rest, encode_bclr ▸ hin, h0⟩
    · exact .inr ⟨rest, encode_enc ▸ hin, h17, herr⟩
  · cases h
    obtain ⟨a, -, hrej⟩ := reject_eq_deliver hdec s.takeEvent
    rw [hrej] at hlt
    exact absurd hlt (Nat.lt_irrefl _)

end Machine

end Sys2Proof
end

section
/-! Access to the storage from outside (20_memory.md R26, R27, R33): what writes the frame buffer, what an index outside
its space gives, and that reads leave no trace. -/

namespace Sys2Proof

variable {w : CmdWord} {idx : Byte} {imm : Half}

/-! ### Indices outside their space -/

theorem Machine.fieldIndexOk_eq_false_iff : Machine.fieldIndexOk idx = false ↔ 15 ≤ idx.toNat := by
  simp only [Machine.fieldIndexOk, decide_eq_false_iff_not]
  omega

theorem Machine.bufferOffsetOk_eq_false_iff : Machine.bufferOffsetOk idx = false ↔ 17 ≤ idx.toNat := by
  simp only [Machine.bufferOffsetOk, decide_eq_false_iff_not]
  omega

theorem Machine.sysRegOk_eq_false_iff : Machine.sysRegOk idx = false ↔ 4 ≤ idx.toNat := by
  simp only [Machine.sysRegOk, decide_eq_false_iff_not]
  omega

theorem Machine.sysRegWritable_eq_false_iff : Machine.sysRegWritable idx = false ↔ idx.toNat ≠ 0 := by
  simp only [Machine.sysRegWritable, decide_eq_false_iff_not]

theorem decodeIndexed_outside {i : Instr} : decodeIndexed i false idx imm = .error (.indexRange idx) := rfl

theorem decodeWrf_outside (h : 15 ≤ idx.toNat) : decodeWrf idx imm = .error (.indexRange idx) := by
  simp [decodeWrf, Machine.fieldIndexOk_eq_false_iff.2 h]

theorem decodeWrsr_outside (h : 4 ≤ idx.toNat) : decodeWrsr idx imm = .error (.indexRange idx) := by
  have hwritable : Machine.sysRegWritable idx = false := Machine.sysRegWritable_eq_false_iff.2 (by omega)
  simp [decodeWrsr, hwritable, Machine.sysRegOk_eq_false_iff.2 h]

/-- The decoder names the index of a word as its fault before it looks at `imm` (R54). -/
theorem decodeWord_outside
    (h : ((opField w).toNat = 1 ∨ (opField w).toNat = 2) ∧ 15 ≤ (idxField w).toNat
      ∨ (opField w).toNat = 4 ∧ 17 ≤ (idxField w).toNat
      ∨ ((opField w).toNat = 8 ∨ (opField w).toNat = 9) ∧ 4 ≤ (idxField w).toNat) :
    decodeWord w = .error (.indexRange (idxField w)) := by
  obtain ⟨hop | hop, hidx⟩ | ⟨hop, hidx⟩ | ⟨hop | hop, hidx⟩ := h <;> simp only [decodeWord, hop]
  · exact decodeWrf_outside hidx
  · rw [Machine.fieldIndexOk_eq_false_iff.2 hidx, decodeIndexed_outside]
  · rw [Machine.bufferOffsetOk_eq_false_iff.2 hidx, decodeIndexed_outside]
  · rw [Machine.sysRegOk_eq_false_iff.2 hidx, decodeIndexed_outside]
  · exact decodeWrsr_outside hidx

namespace Machine

variable {s t : State} {i : Instr}

/-! ### The answer IllegalOperation -/

theorem fetch_of_decode_error {r : Request} {rest : List HostEvent} {why : Reject}
    (hin : s.inbox = .issue r :: rest) (hdec : decode r = .error why) : fetch s = .rejected why := by
  simp [fetch, hin, hdec]

theorem step_of_fetch_rejected {why : Reject} (hf : fetch s = .rejected why) :
    step s = .next (s.takeEvent.reject why) := by
  simp [step, hf]

/-- IllegalOperation as the whole state it leaves: one answer more and nothing else (R51, R79). -/
theorem State.raiseIllegal_eq (s : State) :
    s.raiseIllegal = { s with outbox := s.outbox ++ [.response 0x03000000#32] } := by
  rw [← responseWord_illegal]
  rfl

/-- A command word that the decoder rejects, for whatever reason, raises IllegalOperation (R54, R79). -/
theorem raisesIllegalOperation_of_decode_error {why : Reject} (hdec : decode (.command w) = .error why) :
    RaisesIllegalOperation w := by
  intro s rest hin
  calc step s = .next (s.takeEvent.reject why) := step_of_fetch_rejected (fetch_of_decode_error hin hdec)
    _ = .next s.takeEvent.raiseIllegal := by rw [reject_command hdec]
    _ = _ := by rw [State.raiseIllegal_eq, State.takeEvent_of_inbox_cons hin]

/-! ### The three reads -/

/-- What the host receives from a read: the value, or IllegalOperation where the index is outside its space (R27). -/
def readAnswer (inRange : Bool) (v : Half) : Answer :=
  .response (if inRange then responseWord 0 v else responseWord 3 0)

/-- Every read is its answer and nothing else. -/
theorem read_eq_deliver (inRange : Bool) (v : Half) :
    (if inRange then .next (s.respond v) else .next s.raiseIllegal : Host.Outcome State Fault Refusal)
      = .next (s.deliver (readAnswer inRange v)) := by
  cases inRange <;> rfl

theorem exec_rdf : exec (.rdf idx) s = .next (s.deliver (readAnswer (fieldIndexOk idx) (s.field idx.toNat))) :=
  read_eq_deliver _ _

theorem exec_rdb :
    exec (.rdb idx) s = .next (s.deliver (readAnswer (bufferOffsetOk idx) (zext16 (s.byteAt idx.toNat)))) :=
  read_eq_deliver _ _

theorem exec_rdsr : exec (.rdsr idx) s = .next (s.deliver (readAnswer (sysRegOk idx) (s.sysReg idx.toNat))) :=
  read_eq_deliver _ _

theorem deliver_readAnswer_outside (v : Half) : s.deliver (readAnswer false v) = s.raiseIllegal := rfl

theorem exec_wrf_outside (h : 15 ≤ idx.toNat) : exec (.wrf idx imm) s = .next s.raiseIllegal := by
  simp [exec, execWrf, fieldIndexOk_eq_false_iff.2 h]

theorem exec_wrsr_outside (h : idx.toNat ≠ 0) : exec (.wrsr idx imm) s = .next s.raiseIllegal := by
  simp [exec, execWrsr, sysRegWritable_eq_false_iff.2 h]

/-- Settles O27: the decoder rejects such a word for its index, and the operation on such an index answers
IllegalOperation. -/
theorem indexOutsideItsSpaceIsIllegal : Obligations.IndexOutsideItsSpaceIsIllegal := by
  constructor
  · intro w op idx h
    exact raisesIllegalOperation_of_decode_error (decodeWord_outside h)
  · intro s idx imm i h
    rw [← State.raiseIllegal_eq]
    obtain ⟨rfl, hidx⟩ | ⟨rfl, hidx⟩ | ⟨rfl, hidx⟩ | ⟨rfl, hidx⟩ | ⟨rfl, hidx⟩ := h
    · exact exec_wrf_outside hidx
    · rw [exec_rdf, fieldIndexOk_eq_false_iff.2 hidx, deliver_readAnswer_outside]
    · rw [exec_rdb, bufferOffsetOk_eq_false_iff.2 hidx, deliver_readAnswer_outside]
    · rw [exec_rdsr, sysRegOk_eq_false_iff.2 hidx, deliver_readAnswer_outside]
    · exact exec_wrsr_outside (by omega)

/-! ### Reads leave no trace -/

theorem SameBlock.refl (s : State) : SameBlock s s :=
  ⟨rfl, fun _ => rfl, rfl, rfl, rfl, rfl⟩

theorem SameBlock.deliver (s : State) (a : Answer) : SameBlock s (s.deliver a) :=
  ⟨rfl, fun _ => rfl, rfl, rfl, rfl, rfl⟩

theorem SameBlock.sysReg_eq (h : SameBlock s t) (a : Nat) : t.sysReg a = s.sysReg a := by
  unfold State.sysReg
  rw [h.ctrl_eq, h.status_eq, h.csum_eq, h.blen_eq]

/-- A read gives an answer that the block alone decides, and does nothing else (R33). -/
theorem exec_read_of_sameBlock (hi : i = .rdf idx ∨ i = .rdb idx ∨ i = .rdsr idx) (s : State) :
    ∃ a, ∀ t, SameBlock s t → exec i t = .next (t.deliver a) := by
  obtain rfl | rfl | rfl := hi
  · exact ⟨_, fun t h => by rw [exec_rdf, State.field_of_f h.f_eq]⟩
  · exact ⟨_, fun t h => by rw [exec_rdb, h.byte_eq]⟩
  · exact ⟨_, fun t h => by rw [exec_rdsr, h.sysReg_eq]⟩

/-- Settles O52: each of the two reads delivers the answer of the block as it stood first, which a delivery leaves as it
is. -/
theorem readsHaveNoSideEffect : Obligations.ReadsHaveNoSideEffect := by
  intro i idx s hi
  obtain ⟨a, hread⟩ := exec_read_of_sameBlock hi s
  have hfirst : SameBlock s (s.deliver a) := .deliver s a
  exact ⟨s.deliver a, (s.deliver a).deliver a, a, hread s (.refl s), hread _ hfirst, hfirst, .deliver _ a,
    rfl, rfl, rfl⟩

/-! ### Who writes the frame buffer -/

/-- Settles O48: of all effects only those of PUSH and a successful ENC write the buffer. -/
theorem onlyPushAndEncWriteTheBuffer : Obligations.OnlyPushAndEncWriteTheBuffer := by
  intro i s t h hpush henc k
  refine State.byteAt_of_buf ?_ k
  cases exec_effect h with
  | push b => exact absurd rfl (hpush b)
  | encDone _ => exact absurd (encDone_statusErr _) (henc rfl)
  | _ => rfl

end Machine

end Sys2Proof
end

section
/-! The command words of 30_encoding.md R49, R50 and R54: what the table spells, that the decoder accepts exactly that,
and what follows for the words that are illegal and for the responses (R51). -/

namespace Sys2Proof

/-! ### R50's table -/

/-- R50's table: the operation that three fields of a command word spell, with each operand in its range and each
must-be-zero field 0. -/
inductive Spells : Nat → Byte → Half → Instr → Prop where
  | nop : Spells 0 0 0 .nop
  | wrf {idx : Byte} (imm : Half) (hidx : Machine.fieldIndexOk idx = true) : Spells 1 idx imm (.wrf idx imm)
  | rdf {idx : Byte} (hidx : Machine.fieldIndexOk idx = true) : Spells 2 idx 0 (.rdf idx)
  | push (b : Byte) : Spells 3 0 (Machine.zext16 b) (.push b)
  | rdb {idx : Byte} (hidx : Machine.bufferOffsetOk idx = true) : Spells 4 idx 0 (.rdb idx)
  | bclr : Spells 5 0 0 .bclr
  | enc : Spells 6 0 0 .enc
  | dec : Spells 7 0 0 .dec
  | rdsr {idx : Byte} (hidx : Machine.sysRegOk idx = true) : Spells 8 idx 0 (.rdsr idx)
  | wrsr {idx : Byte} (imm : Half) (hidx : Machine.sysRegWritable idx = true) : Spells 9 idx imm (.wrsr idx imm)

variable {w : CmdWord} {op : Nat} {idx : Byte} {imm : Half} {i j : Instr} {inRange : Bool}

theorem Spells.of_decodePlain (h : decodePlain i idx imm = .ok j) (hrow : Spells op 0 0 i) : Spells op idx imm j := by
  obtain ⟨rfl, rfl, rfl⟩ := decodePlain_eq_ok_iff.1 h
  exact hrow

theorem Spells.of_decodeIndexed (h : decodeIndexed i inRange idx imm = .ok j)
    (hrow : inRange = true → Spells op idx 0 i) : Spells op idx imm j := by
  obtain ⟨hidx, rfl, rfl⟩ := decodeIndexed_eq_ok_iff.1 h
  exact hrow hidx

/-- The arms stand in the order of `op`, 0 to 9 and the undefined ones. -/
theorem Spells.of_lowByte (h : imm.toNat ≤ 255) : Spells 3 0 imm (.push (Machine.lowByte imm)) := by
  have hrow := Spells.push (Machine.lowByte imm)
  rwa [Machine.zext16_lowByte h] at hrow

theorem spells_of_decodeWord (h : decodeWord w = .ok i) : Spells (opField w).toNat (idxField w) (immField w) i := by
  simp only [decodeWord] at h
  split at h
  next hop => rw [hop]; exact .of_decodePlain h .nop
  next hop =>
    obtain ⟨hidx, rfl⟩ := decodeWrf_eq_ok_iff.1 h
    rw [hop]
    exact .wrf _ hidx
  next hop => rw [hop]; exact .of_decodeIndexed h .rdf
  next hop =>
    obtain ⟨hidx, himm, rfl⟩ := decodePush_eq_ok_iff.1 h
    rw [hop, hidx]
    exact .of_lowByte himm
  next hop => rw [hop]; exact .of_decodeIndexed h .rdb
  next hop => rw [hop]; exact .of_decodePlain h .bclr
  next hop => rw [hop]; exact .of_decodePlain h .enc
  next hop => rw [hop]; exact .of_decodePlain h .dec
  next hop => rw [hop]; exact .of_decodeIndexed h .rdsr
  next hop =>
    obtain ⟨hidx, rfl⟩ := decodeWrsr_eq_ok_iff.1 h
    rw [hop]
    exact .wrsr _ hidx
  next => cases h

theorem decodeWord_of_spells (h : Spells op idx imm i) (hop : (opField w).toNat = op) (hidx : idxField w = idx)
    (himm : immField w = imm) : decodeWord w = .ok i := by
  simp only [decodeWord, hop, hidx, himm]
  cases h with
  | nop | bclr | enc | dec => rfl
  | wrf _ hok => exact decodeWrf_eq_ok_iff.2 ⟨hok, rfl⟩
  | wrsr _ hok => exact decodeWrsr_eq_ok_iff.2 ⟨hok, rfl⟩
  | rdf hok | rdb hok | rdsr hok => exact decodeIndexed_eq_ok_iff.2 ⟨hok, rfl, rfl⟩
  | push b => exact decodePush_eq_ok_iff.2 ⟨rfl, by rw [Machine.zext16_toNat]; omega, by rw [Machine.lowByte_zext16]⟩

/-- What the decoder accepts is R50's table. -/
theorem decodeWord_eq_ok_iff : decodeWord w = .ok i ↔ Spells (opField w).toNat (idxField w) (immField w) i :=
  ⟨spells_of_decodeWord, fun h => decodeWord_of_spells h rfl rfl rfl⟩

theorem decode_commandWord {op : Byte} (h : Spells op.toNat idx imm i) :
    decode (.command (commandWord op idx imm)) = .ok i :=
  decodeWord_of_spells h (by rw [opField_commandWord]) (idxField_commandWord ..) (immField_commandWord ..)

/-! ### Decode and encode -/

/-- Settles O13: an operation's word is a row of R50's table, a frame row is its own request, and an enumeration row is
found in the list of rows by its enumeration and value. -/
theorem everyInstructionDecodesBack : Obligations.EveryInstructionDecodesBack := by
  intro i hwf
  cases i with
  | nop => exact decode_commandWord .nop
  | wrf idx imm => exact decode_commandWord (.wrf imm hwf)
  | rdf idx => exact decode_commandWord (.rdf hwf)
  | push b => exact decode_commandWord (.push b)
  | rdb idx => exact decode_commandWord (.rdb hwf)
  | bclr => exact decode_commandWord .bclr
  | enc => exact decode_commandWord .enc
  | dec => exact decode_commandWord .dec
  | rdsr idx => exact decode_commandWord (.rdsr hwf)
  | wrsr idx imm => exact decode_commandWord (.wrsr imm hwf)
  | _ => rfl

theorem Spells.wellFormed (h : Spells op idx imm i) : i.WellFormed = true := by
  cases h with
  | wrf _ hok | rdf hok | rdb hok | rdsr hok | wrsr _ hok => exact hok
  | _ => rfl

/-- Settles O14: a word that decodes is a row of R50's table, and each of its three fields is as the encoder writes it. -/
theorem decodedWordIsTheEncodersWord : Obligations.DecodedWordIsTheEncodersWord :=
  fun _ _ hdec => ⟨(decodeWord_eq_ok_iff.1 hdec).wellFormed, encode_of_decode hdec⟩

/-- Settles O15: each word and each byte is run through the decoder. -/
theorem sampleWordsDecode : Obligations.SampleWordsDecode := by
  unfold Obligations.SampleWordsDecode
  decide

/-! ### The illegal words -/

/-- R54's cases (a) to (e), in the order (a), (b) for `idx`, (b) for `imm`, (c) by index space, (d), (e). -/
def IllegalFields (op idx imm : Nat) : Prop :=
  10 ≤ op
    ∨ ((op = 0 ∨ op = 3 ∨ op = 5 ∨ op = 6 ∨ op = 7) ∧ idx ≠ 0)
    ∨ ((op = 0 ∨ op = 2 ∨ op = 4 ∨ op = 5 ∨ op = 6 ∨ op = 7 ∨ op = 8) ∧ imm ≠ 0)
    ∨ ((op = 1 ∨ op = 2) ∧ 14 < idx)
    ∨ (op = 4 ∧ 16 < idx)
    ∨ ((op = 8 ∨ op = 9) ∧ 3 < idx)
    ∨ (op = 9 ∧ (idx = 1 ∨ idx = 2 ∨ idx = 3))
    ∨ (op = 3 ∧ 256 ≤ imm)

theorem Machine.fieldIndexOk_iff : Machine.fieldIndexOk idx = true ↔ idx.toNat ≤ 14 := decide_eq_true_iff

theorem Machine.bufferOffsetOk_iff : Machine.bufferOffsetOk idx = true ↔ idx.toNat ≤ 16 := decide_eq_true_iff

theorem Machine.sysRegOk_iff : Machine.sysRegOk idx = true ↔ idx.toNat ≤ 3 := decide_eq_true_iff

theorem Machine.sysRegWritable_iff : Machine.sysRegWritable idx = true ↔ idx.toNat = 0 := decide_eq_true_iff

theorem Spells.not_illegalFields (h : Spells op idx imm i) : ¬ IllegalFields op idx.toNat imm.toNat := by
  unfold IllegalFields
  cases h with
  | nop | bclr | enc | dec => decide
  | wrf _ hok | rdf hok => have := Machine.fieldIndexOk_iff.1 hok; bv_omega
  | push b => have := Machine.zext16_toNat b; bv_omega
  | rdb hok => have := Machine.bufferOffsetOk_iff.1 hok; bv_omega
  | rdsr hok => have := Machine.sysRegOk_iff.1 hok; bv_omega
  | wrsr _ hok => have := Machine.sysRegWritable_iff.1 hok; bv_omega

/-- A word outside (a) to (e) spells an operation: by (a) its `op` is one of the ten, by (b) its must-be-zero fields are 0,
by (c) to (e) its operands are in range. -/
theorem exists_spells_of_legal (h : ¬ IllegalFields op idx.toNat imm.toNat) : ∃ i, Spells op idx imm i := by
  unfold IllegalFields at h
  have hidx0 : idx.toNat = 0 → idx = 0 := fun h0 => BitVec.eq_of_toNat_eq h0
  have himm0 : imm.toNat = 0 → imm = 0 := fun h0 => BitVec.eq_of_toNat_eq h0
  have hop : op < 10 := by omega
  interval_cases op
  · exact ⟨.nop, hidx0 (by omega) ▸ himm0 (by omega) ▸ .nop⟩
  · exact ⟨_, .wrf imm (Machine.fieldIndexOk_iff.2 (by omega))⟩
  · exact ⟨.rdf idx, himm0 (by omega) ▸ .rdf (Machine.fieldIndexOk_iff.2 (by omega))⟩
  · exact ⟨.push (Machine.lowByte imm), hidx0 (by omega) ▸ .of_lowByte (by omega)⟩
  · exact ⟨.rdb idx, himm0 (by omega) ▸ .rdb (Machine.bufferOffsetOk_iff.2 (by omega))⟩
  · exact ⟨.bclr, hidx0 (by omega) ▸ himm0 (by omega) ▸ .bclr⟩
  · exact ⟨.enc, hidx0 (by omega) ▸ himm0 (by omega) ▸ .enc⟩
  · exact ⟨.dec, hidx0 (by omega) ▸ himm0 (by omega) ▸ .dec⟩
  · exact ⟨.rdsr idx, himm0 (by omega) ▸ .rdsr (Machine.sysRegOk_iff.2 (by omega))⟩
  · exact ⟨_, .wrsr imm (Machine.sysRegWritable_iff.2 (by omega))⟩

/-- The rows of R50's table as equations of the operation. -/
theorem Spells.row (h : Spells op idx imm i) :
    op = 0 ∧ i = .nop ∨ op = 1 ∧ i = .wrf idx imm ∨ op = 2 ∧ i = .rdf idx ∨ op = 3 ∧ i = .push (Machine.lowByte imm)
      ∨ op = 4 ∧ i = .rdb idx ∨ op = 5 ∧ i = .bclr ∨ op = 6 ∧ i = .enc ∨ op = 7 ∧ i = .dec ∨ op = 8 ∧ i = .rdsr idx
      ∨ op = 9 ∧ i = .wrsr idx imm := by
  cases h <;> simp

/-- Settles O12: a word that decodes spells a row of R50's table and so meets none of (a) to (e); any other word is
rejected, and a rejected word raises IllegalOperation. -/
theorem illegalWordsAreExactlyThose : Obligations.IllegalWordsAreExactlyThose := by
  intro w
  constructor
  · intro (hill : IllegalFields (opField w).toNat (idxField w).toNat (immField w).toNat)
    cases hdec : decode (.command w) with
    | ok i => exact absurd hill (decodeWord_eq_ok_iff.1 hdec).not_illegalFields
    | error why => exact Machine.raisesIllegalOperation_of_decode_error hdec
  · intro (hlegal : ¬ IllegalFields (opField w).toNat (idxField w).toNat (immField w).toNat)
    obtain ⟨i, hrow⟩ := exists_spells_of_legal hlegal
    exact ⟨i, decodeWord_eq_ok_iff.2 hrow, hrow.row⟩

/-! ### The response of a command word -/

namespace Machine

variable {s t : State}

/-- The shape of the response to a command word with this `op` (R51). -/
def ResponseShape (op : Nat) (r : CmdWord) : Prop :=
  (r.extractLsb' 24 8).toNat ≤ 3 ∧ r.extractLsb' 16 8 = 0
    ∧ (r.extractLsb' 24 8 ≠ 0 → r.extractLsb' 0 16 = 0)
    ∧ (r.extractLsb' 0 16 ≠ 0 → op = 2 ∨ op = 4 ∨ op = 8)

theorem responseShape_noData {code : Byte} (hcode : code.toNat ≤ 3) : ResponseShape op (responseWord code 0) := by
  simp [ResponseShape, hcode]

theorem responseShape_value (v : Half) (hop : op = 2 ∨ op = 4 ∨ op = 8) : ResponseShape op (responseWord 0 v) := by
  simp [ResponseShape, hop]

/-- The state `t` is left with one response more than `s`, of the shape for `op`. -/
def Responds (op : Nat) (s t : State) : Prop :=
  t.inbox = s.inbox ∧ ∃ r, t.outbox = s.outbox ++ [.response r] ∧ ResponseShape op r

theorem responds_noData {code : Byte} (hcode : code.toNat ≤ 3) (hin : t.inbox = s.inbox)
    (hout : t.outbox = s.outbox ++ [.response (responseWord code 0)]) : Responds op s t :=
  ⟨hin, _, hout, responseShape_noData hcode⟩

theorem responds_respond_value (v : Half) (hop : op = 2 ∨ op = 4 ∨ op = 8) : Responds op s (s.respond v) :=
  ⟨rfl, _, rfl, responseShape_value v hop⟩

theorem responds_raiseIllegal : Responds op s s.raiseIllegal := responds_noData (code := 3) (by decide) rfl rfl

theorem execEnc_responds (s : State) : ∃ t, execEnc s = .next t ∧ Responds op s t := by
  cases hbad : firstBad 1 s.operands with
  | none => exact ⟨_, execEnc_ok (firstBad_operands_none.1 hbad), responds_noData (code := 0) (by decide) rfl rfl⟩
  | some k => exact ⟨_, execEnc_bad hbad, responds_noData (code := 1) (by decide) rfl rfl⟩

theorem execDec_responds (s : State) : ∃ t, execDec s = .next t ∧ Responds op s t := by
  obtain ⟨_, _, -, -, ⟨-, h⟩ | ⟨-, -, -, h⟩ | ⟨-, -, h⟩⟩ := execDec_cases s
  · exact ⟨_, h, responds_noData (code := 2) (by decide) rfl rfl⟩
  · exact ⟨_, h, responds_noData (code := 2) (by decide) rfl rfl⟩
  · exact ⟨_, h, responds_noData (code := 0) (by decide) rfl rfl⟩

/-- An operation gives one response, and a value only where it is a read. -/
theorem exec_responds (h : Spells op idx imm i) (s : State) : ∃ t, exec i s = .next t ∧ Responds op s t := by
  cases h with
  | nop => exact ⟨_, rfl, responds_noData (code := 0) (by decide) rfl rfl⟩
  | wrf _ hok => exact ⟨_, if_pos hok, responds_noData (code := 0) (by decide) rfl rfl⟩
  | rdf hok => exact ⟨_, if_pos hok, responds_respond_value _ (by decide)⟩
  | push b => exact ⟨_, rfl, responds_noData (code := 0) (by decide) (by simp) (by simp)⟩
  | rdb hok => exact ⟨_, if_pos hok, responds_respond_value _ (by decide)⟩
  | bclr => exact ⟨_, rfl, responds_noData (code := 0) (by decide) rfl rfl⟩
  | enc => exact execEnc_responds s
  | dec => exact execDec_responds s
  | rdsr hok => exact ⟨_, if_pos hok, responds_respond_value _ (by decide)⟩
  | wrsr _ hok => exact ⟨_, if_pos hok, responds_noData (code := 0) (by decide) rfl rfl⟩

theorem step_command_responds {rest : List HostEvent} (hin : s.inbox = .issue (.command w) :: rest) :
    ∃ t, step s = .next t ∧ Responds (opField w).toNat s.takeEvent t := by
  cases hdec : decode (.command w) with
  | ok i =>
    rw [step_of_fetch_run (fetch_of_decode_ok hin hdec)]
    exact exec_responds (decodeWord_eq_ok_iff.1 hdec) s.takeEvent
  | error why =>
    rw [step_of_fetch_rejected (fetch_of_decode_error hin hdec), reject_command hdec]
    exact ⟨_, rfl, responds_raiseIllegal⟩

/-- Settles O6: a legal word runs an operation, which gives its response, and an illegal one gives IllegalOperation's. -/
theorem oneResponsePerCommandWord : Obligations.OneResponsePerCommandWord := by
  intro s w rest hin
  obtain ⟨t, hstep, hinbox, r, hout, hshape⟩ := step_command_responds hin
  exact ⟨t, r, hstep, by rw [hinbox, State.takeEvent_inbox, hin, List.tail_cons], hout, hshape⟩

end Machine

end Sys2Proof
end

section
/-! The enumerations carried in a frame (30_encoding.md R42, R43, R44, R48): a byte that no row names, and the answer of
each row. -/

namespace Sys2Proof

variable {kind : Enumeration} {v : Byte}

theorem findName_eq_none (h : ∀ m : Member, m.kind = kind → m.value ≠ v) : findName kind v = none := by
  refine Option.eq_none_iff_forall_ne_some.2 fun i hfind => ?_
  obtain ⟨m, -, hkind, hvalue⟩ := findName_eq_some hfind
  exact h m hkind hvalue

/-- The rows name every member of `mode` (R42). -/
theorem findName_mode_isSome : ∀ n ≤ 5, (findName .mode (BitVec.ofNat 8 n)).isSome = true := by decide

/-- The rows name every member of `ctr` (R43). -/
theorem findName_ctr_isSome : ∀ n ≤ 8, (findName .ctr (BitVec.ofNat 8 n)).isSome = true := by decide

/-- The rows name the six members of `cmd` that the source names (R44). -/
theorem findName_cmd_isSome :
    ∀ n ∈ [0, 2, 20, 21, 25, 130], (findName .cmd (BitVec.ofNat 8 n)).isSome = true := by decide

namespace Machine

/-- A byte that no row names is not the value of any row. -/
theorem toNat_ne_of_findName_none (h : findName kind v = none) {n : Nat}
    (hsome : (findName kind (BitVec.ofNat 8 n)).isSome = true) : v.toNat ≠ n := by
  rintro rfl
  rw [BitVec.ofNat_toNat, BitVec.setWidth_eq, h] at hsome
  cases hsome

theorem modeValid_eq_false (h : findName .mode v = none) : modeValid v.toNat = false :=
  decide_eq_false fun hle => toNat_ne_of_findName_none h (findName_mode_isSome _ hle) rfl

theorem ctrValid_eq_false (h : findName .ctr v = none) : ctrValid v.toNat = false :=
  decide_eq_false fun hle => toNat_ne_of_findName_none h (findName_ctr_isSome _ hle) rfl

theorem mem_of_cmdNamed {n : Nat} (h : cmdNamed n = true) : n ∈ [0, 2, 20, 21, 25, 130] := by
  simpa [cmdNamed, or_assoc] using h

theorem cmdNamed_eq_false (h : findName .cmd v = none) : cmdNamed v.toNat = false :=
  Bool.eq_false_iff.2 fun hnamed => toNat_ne_of_findName_none h (findName_cmd_isSome _ (mem_of_cmdNamed hnamed)) rfl

theorem cmdValid_of_not_named (h : cmdNamed v.toNat = false) : cmdValid v.toNat = Config.cmdFurther v := by
  have hle : v.toNat ≤ 255 := by omega
  simp [cmdValid, h, hle]

/-- A byte that no row names is a member only of `cmd`, and only where the open part of `CMD_VALID` holds it (R48). -/
theorem Enumeration.valid_of_findName_none (h : findName kind v = none) :
    Enumeration.valid kind v = (decide (kind = .cmd) && Config.cmdFurther v) := by
  cases kind with
  | mode => exact modeValid_eq_false h
  | ctr => exact ctrValid_eq_false h
  | cmd => exact cmdValid_of_not_named (cmdNamed_eq_false h)

/-- Settles O16: no row has the byte, so the decoder rejects the look-up, and the rejection is answered. -/
theorem unnamedByteIsUnknown : Obligations.UnnamedByteIsUnknown := by
  intro s kind v rest hin hunnamed
  have hnone : findName kind v = none := findName_eq_none hunnamed
  have hdec : decode (.nameCall kind v) = .error (.noName kind v) := by simp [decode, decodeName, hnone]
  calc step s = .next (s.takeEvent.reject (.noName kind v)) :=
        step_of_fetch_rejected (fetch_of_decode_error hin hdec)
    _ = .next (s.takeEvent.deliver (.noName kind v (Enumeration.valid kind v))) := rfl
    _ = _ := by rw [Enumeration.valid_of_findName_none hnone, State.takeEvent_of_inbox_cons hin]; rfl

theorem nameMember_eq (m : Member) (s : State) :
    nameMember m s = .next { s with outbox := s.outbox ++ [.member m m.kind.offset m.value] } := rfl

/-- Settles O45: each row is the look-up of its own member. -/
theorem enumerationRowsAnswerTheirValues : Obligations.EnumerationRowsAnswerTheirValues := fun s =>
  ⟨nameMember_eq (.mode .TX) s, nameMember_eq (.mode .RX) s, nameMember_eq (.mode .TX_F) s,
    nameMember_eq (.mode .RX_F) s, nameMember_eq (.mode .SERVICE_F) s, nameMember_eq (.mode .OTA_F) s,
    nameMember_eq (.ctr .CMD) s, nameMember_eq (.ctr .BROADCAST_CMD) s, nameMember_eq (.ctr .READ) s,
    nameMember_eq (.ctr .BIND_START) s, nameMember_eq (.ctr .BIND_STOP) s, nameMember_eq (.ctr .CLEAR) s,
    nameMember_eq (.ctr .CLEAR_ALL) s, nameMember_eq (.ctr .UNBIND) s, nameMember_eq (.ctr .CMD_F_ADDR) s,
    nameMember_eq (.cmd .OFF) s, nameMember_eq (.cmd .ON) s, nameMember_eq (.cmd .BATTERY_LOW) s,
    nameMember_eq (.cmd .SENSOR_TEMP_HUM) s, nameMember_eq (.cmd .TEMPORARY_ON) s, nameMember_eq (.cmd .SEND_STATE) s⟩

end Machine

end Sys2Proof
end

section
/-! The command frame as seventeen bytes (30_encoding.md R38, R39, R41, R47): its three constants, and that its image and
its fields determine each other. -/

namespace Sys2Proof

open Machine

/-! ### Lists of bytes, offset by offset -/

theorem take_eq_map_range {b : List Byte} {n : Nat} (h : n ≤ b.length) :
    b.take n = (List.range n).map fun k => b.getD k 0 := by
  refine List.ext_getElem (by simp [h]) fun k hk _ => ?_
  have hkb : k < b.length := (List.length_take_le' n b).trans_lt' hk
  rw [List.getElem_take, List.getElem_map, List.getElem_range, List.getD_eq_getElem _ _ hkb]

theorem eq_take_append_of_length {b : List Byte} (h : b.length = 17) :
    b = b.take 15 ++ [b.getD 15 0, b.getD 16 0] := by
  calc b = b.take 17 := (List.take_of_length_le h.le).symm
    _ = b.take 15 ++ [b.getD 15 0, b.getD 16 0] := by
      rw [take_eq_map_range (n := 17) h.ge, take_eq_map_range (n := 15) (by omega)]
      rfl

/-! ### From the fields to the image and back -/

variable {f : NamedFields} {b : List Byte}

/-- A frame row is well formed when each of the fields passes its check (R58). -/
theorem wellFormed_frameCmd_iff : (Instr.frameCmd f).WellFormed = true ↔ firstBad 1 (fieldList f) = none :=
  Option.isNone_iff_eq_none

theorem fieldList_getD_le (h : firstBad 1 (fieldList f) = none) {k : Nat} (h1 : 1 ≤ k) (h14 : k ≤ 14) :
    ((fieldList f).getD (k - 1) 0).toNat ≤ 255 :=
  fieldOk_le (firstBad_none.1 h (k - 1) (by rw [fieldList_length]; omega))

theorem imageField_writeCommandImage (h : firstBad 1 (fieldList f) = none) {k : Nat} (h1 : 1 ≤ k) (h14 : k ≤ 14) :
    imageField (writeCommandImage f) k = (fieldList f).getD (k - 1) 0 := by
  rw [imageField, writeCommandImage, frameOf_field (fieldList_length f) k h1 h14,
    zext16_lowByte (fieldList_getD_le h h1 h14)]

theorem imageFields_writeCommandImage (h : firstBad 1 (fieldList f) = none) :
    imageFields (writeCommandImage f) = f := by
  simp (disch := decide) only [imageFields, imageField_writeCommandImage h]
  rfl

/-- The image of checked fields meets every condition under which a list of bytes is read as a command frame. -/
theorem readCommandImage_writeCommandImage (h : firstBad 1 (fieldList f) = none) :
    readCommandImage (writeCommandImage f) = some f := by
  have hlen := fieldList_length f
  have hsum : (writeCommandImage f).getD 15 0 = checksum ((writeCommandImage f).take 15) := by
    rw [writeCommandImage, frameOf_checksum hlen, frameOf_take hlen]
  unfold readCommandImage
  rw [imageFields_writeCommandImage h]
  exact if_pos ⟨frameOf_length hlen, frameOf_start _, frameOf_stop hlen, hsum, h⟩

/-! ### From the image to the fields and back -/

theorem fieldList_imageFields (b : List Byte) : fieldList (imageFields b) = (List.range' 1 14).map (imageField b) := rfl

/-- The content bytes of an image are its start byte and its fields (R38, R41). -/
theorem content_imageFields (hlen : b.length = 17) (hstart : b.getD 0 0 = stTx) :
    content (fieldList (imageFields b)) = b.take 15 := by
  have hbytes : (fieldList (imageFields b)).map lowByte = (List.range' 1 14).map fun k => b.getD k 0 := by
    rw [fieldList_imageFields, List.map_map]
    exact List.map_congr_left fun k _ => lowByte_zext16 _
  rw [content, hbytes, ← hstart, take_eq_map_range (by omega)]
  rfl

theorem readCommandImage_eq_some (h : readCommandImage b = some f) :
    writeCommandImage f = b ∧ firstBad 1 (fieldList f) = none := by
  unfold readCommandImage at h
  split at h <;> cases h
  next hcond =>
    obtain ⟨hlen, hstart, hstop, hsum, hok⟩ := hcond
    refine ⟨?_, hok⟩
    rw [writeCommandImage, frameOf, content_imageFields hlen hstart, ← hsum, ← hstop, ← eq_take_append_of_length hlen]

/-- Settles O17: the bytes of an image are its fields with the constants of R39 around them, both ways. -/
theorem commandImageReadsBack : Obligations.CommandImageReadsBack := by
  refine ⟨fun f hwf => readCommandImage_writeCommandImage (wellFormed_frameCmd_iff.1 hwf), fun b f h => ?_⟩
  obtain ⟨himage, hok⟩ := readCommandImage_eq_some h
  exact ⟨himage, wellFormed_frameCmd_iff.2 hok⟩

/-! ### The three constants of a frame -/

namespace Machine

variable {s : State}

theorem encDone_frame (h : s.buf.wf = true) {b : List Byte} (hb : b.length = 17) : (encDone b s).frame = b := by
  refine List.ext_getElem (by rw [State.frame_length, hb]) fun k hk hkb => ?_
  have hk17 : k < 17 := by omega
  rw [← List.getD_eq_getElem _ 0 hk, ← List.getD_eq_getElem _ 0 hkb, State.frame_getD _ k hk17,
    encDone_byteAt h hb, if_pos hk17]

/-- A buffer that holds a frame Encode made has the frame's constants (R39). -/
theorem State.constants_of_frame {g : List Half} (hg : g.length = 14) (hframe : s.frame = frameOf g) :
    s.byteAt 0 = 171 ∧ s.byteAt 16 = 172 ∧ (s.byteAt 15).toNat = s.byteSum % 256 := by
  have hsum : (checksum (s.frame.take 15)).toNat = s.byteSum % 256 := State.checksum_frame s
  rw [← hsum, ← State.frame_getD s 0 (by omega), ← State.frame_getD s 15 (by omega), ← State.frame_getD s 16 (by omega),
    hframe, frameOf_take hg, frameOf_checksum hg]
  exact ⟨frameOf_start g, frameOf_stop hg, rfl⟩

theorem encFail_statusErr (k : Nat) : statusErr (encFail k s).status = errEncodeRange :=
  statusErr_statusWord lastEnc errEncodeRange false false (BitVec.ofNat 4 k)

/-- Settles O41: what Encode answers is a frame of fourteen fields, and a successful ENC stores one such frame whole. -/
theorem encodedFrameHasItsConstants : Obligations.EncodedFrameHasItsConstants := by
  constructor
  · intro f b hb
    obtain ⟨-, rfl⟩ := encodeFrame_ok.1 hb
    have hlen := fieldList_length f
    exact ⟨frameOf_length hlen, frameOf_start _, frameOf_stop hlen,
      by rw [frameOf_checksum hlen, frameOf_take hlen, checksum_toNat]⟩
  · intro s t hwf henc herr
    obtain ⟨-, b, hb, rfl⟩ | ⟨k, -, rfl⟩ := execEnc_cases henc
    · have hlen : b.length = 17 := hb ▸ frameOf_length s.operands_length
      exact ⟨encDone_blen b, State.constants_of_frame s.operands_length ((encDone_frame hwf hlen).trans hb.symm)⟩
    · rw [encFail_statusErr] at herr
      exact absurd herr (by decide)

end Machine

end Sys2Proof
end

section
/-! The pure functions (40_codec_ops.md R57 to R62): the checksum as a sum of bytes, the encoder's check, Encode and Decode
as the host calls them, and the round trip between them. -/

namespace Sys2Proof

namespace Machine

/-! ### The checksum -/

theorem checksum_cons (b : Byte) (c : List Byte) : checksum (b :: c) = b + checksum c := by
  apply BitVec.eq_of_toNat_eq
  rw [BitVec.toNat_add, checksum_toNat, checksum_toNat, List.map_cons, List.sum_cons]
  omega

/-- The unsigned sum reduced modulo 256 is the sum in 8 bits, where every addition drops its carry (R57). -/
theorem checksum_eq_sum (c : List Byte) : checksum c = c.sum := by
  induction c with
  | nil => rfl
  | cons b c ih => rw [checksum_cons, List.sum_cons, ih]

theorem checksum_set (c : List Byte) (j : Nat) (x : Byte) (hj : j < c.length) :
    checksum (c.set j (c.getD j 0 + x)) = checksum c + x := by
  rw [checksum_eq_sum, checksum_eq_sum, List.sum_set', dif_pos hj, List.getD_eq_getElem _ _ hj, neg_add_cancel_left]

theorem sum_toNat_le (c : List Byte) : (c.map BitVec.toNat).sum ≤ c.length * 255 := by
  have hbyte : ∀ n ∈ c.map BitVec.toNat, n ≤ 255 := by
    rintro _ hn
    obtain ⟨b, -, rfl⟩ := List.mem_map.1 hn
    omega
  simpa using List.sum_le_card_nsmul _ _ hbyte

/-- Settles O40: as a sum in 8 bits the checksum is the accumulator's value, and no order of the bytes matters to it. -/
theorem checksumIsTheSumModulo256 : Obligations.ChecksumIsTheSumModulo256 := by
  intro c
  refine ⟨checksum_toNat c, ?_, fun c' hperm => ?_, checksum_set c, fun hlen => ?_⟩
  · rw [checksum_eq_sum, List.sum_eq_foldl]
  · rw [checksum_eq_sum, checksum_eq_sum, hperm.sum_eq]
  · exact (sum_toNat_le c).trans (by omega)

/-! ### The encoder's check -/

theorem cmdValid_le {n : Nat} (h : cmdValid n = true) : n ≤ 255 := by
  rcases Bool.or_eq_true_iff.1 h with hnamed | hfurther
  · have hmem := mem_of_cmdNamed hnamed
    simp only [List.mem_cons, List.not_mem_nil, or_false] at hmem
    omega
  · exact of_decide_eq_true (Bool.and_eq_true_iff.1 hfurther).1

theorem cmdValid_of_named {n : Nat} (h : n = 0 ∨ n = 2 ∨ n = 20 ∨ n = 21 ∨ n = 25 ∨ n = 130) : cmdValid n = true := by
  have hnamed : cmdNamed n = true := by simpa [cmdNamed, or_assoc] using h
  rw [cmdValid, hnamed, Bool.true_or]

theorem fieldOk_iff {k : Nat} {v : Half} :
    fieldOk k v = true ↔ v.toNat ≤ 255 ∧ (k = 1 → modeValid v.toNat = true) ∧ (k = 2 → ctrValid v.toNat = true)
      ∧ (k = 5 → cmdValid v.toNat = true) := by
  simp only [fieldOk, Bool.and_eq_true, Bool.or_eq_true, bne_iff_ne, decide_eq_true_eq, and_assoc, imp_iff_not_or]

/-- Settles O29: the four clauses of FieldOk, with the bounds of the two closed enumerations. -/
theorem fieldCheckIsWidthAndMembership : Obligations.FieldCheckIsWidthAndMembership := by
  intro k v
  refine ⟨?_, fun _ => cmdValid_of_named, fun _ => cmdValid_le⟩
  simpa only [modeValid, ctrValid, decide_eq_true_eq] using fieldOk_iff (k := k) (v := v)

/-- No field is bad, said by frame offset (R58). -/
theorem firstBad_one_eq_none {vs : List Half} (hlen : vs.length = 14) :
    firstBad 1 vs = none ↔ ∀ k, 1 ≤ k → k ≤ 14 → fieldOk k (vs.getD (k - 1) 0) = true := by
  rw [firstBad_none, hlen]
  constructor
  · intro h k h1 h14
    simpa only [Nat.add_sub_cancel' h1] using h (k - 1) (by omega)
  · intro h j hj
    simpa only [Nat.add_sub_cancel_left] using h (1 + j) (by omega) (by omega)

/-! ### Encode -/

variable {f : List Half}

theorem frameOf_field_toNat (hlen : f.length = 14) (hok : firstBad 1 f = none) {k : Nat} (h1 : 1 ≤ k) (h14 : k ≤ 14) :
    ((frameOf f).getD k 0).toNat = (f.getD (k - 1) 0).toNat := by
  rw [frameOf_field hlen k h1 h14, lowByte_toNat (fieldOk_le ((firstBad_one_eq_none hlen).1 hok k h1 h14))]

theorem exec_frameCmd_ok {g : NamedFields} {b : List Byte} (h : encodeFrame (fieldList g) = .ok b) (s : State) :
    exec (.frameCmd g) s = .next (s.deliver (.encoded b)) := by
  simp only [exec, execFrameCmd, h]

theorem exec_frameCmd_error {g : NamedFields} {k : Nat} (h : encodeFrame (fieldList g) = .error k) (s : State) :
    exec (.frameCmd g) s = .next (s.deliver (.raised (.encodeRange k))) := by
  simp only [exec, execFrameCmd, h]

/-- Settles O43: the call delivers what Encode answers, the frame with its constants or the lowest bad field. -/
theorem encodeCallAnswersTheFrame : Obligations.EncodeCallAnswersTheFrame := by
  intro s f
  have hlen := fieldList_length f
  constructor
  · intro hfields
    have hok : firstBad 1 (fieldList f) = none := (firstBad_one_eq_none hlen).2 hfields
    have henc : encodeFrame (fieldList f) = .ok (frameOf (fieldList f)) := encodeFrame_ok.2 ⟨hok, rfl⟩
    obtain ⟨h17, hstart, hstop, hsum⟩ := encodedFrameHasItsConstants.1 f _ henc
    exact ⟨_, exec_frameCmd_ok henc s, h17, hstart, hstop, fun k => frameOf_field_toNat hlen hok, hsum⟩
  · intro k h1 h14 hbelow hbad
    exact exec_frameCmd_error (encodeFrame_error.2 (firstBad_some.2 ⟨h1, by omega, hbad, hbelow⟩)) s

/-! ### Decode -/

theorem checksum_eq_iff {c : List Byte} {b : Byte} : checksum c = b ↔ (c.map BitVec.toNat).sum % 256 = b.toNat := by
  rw [← BitVec.toNat_inj, checksum_toNat]

theorem ofNat_sum_mod (c : List Byte) : BitVec.ofNat 8 ((c.map BitVec.toNat).sum % 256) = checksum c := by
  rw [← checksum_toNat, BitVec.ofNat_toNat, BitVec.setWidth_eq]

theorem exec_frameRsp_length {b : List Byte} {s : State} (h : decodeUnit b b.length s.strict = .error .length) :
    exec (.frameRsp b) s = .next (s.deliver (.raised .malformedLength)) := by
  simp only [exec, execFrameRsp, h]

theorem exec_frameRsp_checksum {b : List Byte} {s : State} {c : Byte}
    (h : decodeUnit b b.length s.strict = .error (.checksum c)) :
    exec (.frameRsp b) s = .next (s.deliver (.raised (.malformedChecksum c))) := by
  simp only [exec, execFrameRsp, h]

theorem exec_frameRsp_ok {b : List Byte} {s : State} {d : Decoded} (h : decodeUnit b b.length s.strict = .ok d) :
    exec (.frameRsp b) s = .next (s.deliver (.decoded d)) := by
  simp only [exec, execFrameRsp, h]

/-- Settles O44: the call delivers what Decode answers in each of its three cases. -/
theorem decodeCallAnswersTheContent : Obligations.DecodeCallAnswersTheContent := by
  intro s b
  refine ⟨fun hlen => ?_, fun hlen hne hstrict => ?_, fun hlen h => ?_⟩
  · exact exec_frameRsp_length (decodeUnit_length hlen)
  · rw [ofNat_sum_mod]
    refine exec_frameRsp_checksum ?_
    rw [hlen]
    exact decodeUnit_strict (mt checksum_eq_iff.1 hne) hstrict
  · have hmatch := checksum_eq_iff (c := b.take 15) (b := b.getD 15 0)
    rw [ofNat_sum_mod, ← decide_eq_decide.2 hmatch]
    refine exec_frameRsp_ok ?_
    rw [hlen]
    exact decodeUnit_ok (h.imp_left hmatch.2)

/-- Decode of a frame that Encode made gives its content back, for either strictness (R62). -/
theorem decodeUnit_frameOf (hlen : f.length = 14) (strict : Bool) :
    decodeUnit (frameOf f) 17 strict = .ok { content := content f, crcOk := true, sum := checksum (content f) } := by
  have hmatch : checksum ((frameOf f).take 15) = (frameOf f).getD 15 0 := by
    rw [frameOf_take hlen, frameOf_checksum hlen]
  rw [decodeUnit_ok (.inl hmatch), beq_iff_eq.2 hmatch, frameOf_take hlen]

theorem content_of_decodeUnit {b : List Byte} {n : Nat} {strict : Bool} {d : Decoded}
    (h : decodeUnit b n strict = .ok d) : d.content = b.take 15 := by
  obtain ⟨-, hd⟩ | ⟨-, -, -, hd⟩ | ⟨-, -, hd⟩ := decodeUnit_cases b n strict <;> rw [hd] at h <;> cases h
  rfl

end Machine

/-! ### The round trip -/

open Machine

variable {b : List Byte} {f f' : NamedFields}

/-- The content bytes after the first, zero-extended, are the named fields of the image (R38, R41). -/
theorem map_drop_take_eq_fieldList (hlen : b.length = 17) :
    ((b.take 15).drop 1).map (fun g => g.setWidth 16) = fieldList (imageFields b) := by
  rw [take_eq_map_range (by omega)]
  rfl

theorem fieldList_imageFields_getD {k : Nat} (h1 : 1 ≤ k) (h14 : k ≤ 14) :
    (fieldList (imageFields b)).getD (k - 1) 0 = imageField b k := by
  have hk : k - 1 < 14 := by omega
  simp [fieldList_imageFields, List.getD, hk, Nat.add_sub_cancel' h1]

/-- Bytes are never too wide, so that only the three memberships are left to check (R59). -/
theorem firstBad_imageFields_eq_none :
    firstBad 1 (fieldList (imageFields b)) = none ↔
      modeValid (b.getD 1 0).toNat = true ∧ ctrValid (b.getD 2 0).toNat = true ∧ cmdValid (b.getD 5 0).toNat = true := by
  have hfield (k : Nat) (h1 : 1 ≤ k) (h14 : k ≤ 14) : fieldOk k ((fieldList (imageFields b)).getD (k - 1) 0) = true ↔
      (k = 1 → modeValid (b.getD k 0).toNat = true) ∧ (k = 2 → ctrValid (b.getD k 0).toNat = true)
        ∧ (k = 5 → cmdValid (b.getD k 0).toNat = true) := by
    rw [fieldList_imageFields_getD h1 h14, fieldOk_iff, imageField, zext16_toNat]
    exact and_iff_right (by omega)
  rw [firstBad_one_eq_none (fieldList_length _)]
  constructor
  · intro h
    have hall (k : Nat) (h1 : 1 ≤ k) (h14 : k ≤ 14) := (hfield k h1 h14).1 (h k h1 h14)
    exact ⟨(hall 1 (by omega) (by omega)).1 rfl, (hall 2 (by omega) (by omega)).2.1 rfl,
      (hall 5 (by omega) (by omega)).2.2 rfl⟩
  · rintro ⟨hmode, hctr, hcmd⟩ k h1 h14
    exact (hfield k h1 h14).2 ⟨fun e => e ▸ hmode, fun e => e ▸ hctr, fun e => e ▸ hcmd⟩

theorem readCommandImage_imageFields_iff (hlen : b.length = 17) :
    readCommandImage b = some (imageFields b) ↔
      b.getD 0 0 = stTx ∧ b.getD 16 0 = spTx ∧ b.getD 15 0 = checksum (b.take 15)
        ∧ firstBad 1 (fieldList (imageFields b)) = none := by
  simp only [readCommandImage, hlen, true_and, ite_eq_left_iff, reduceCtorEq, imp_false, not_not]

/-- Encode gives an image back exactly when the image is read as a command frame. -/
theorem encodeFrame_imageFields_iff :
    encodeFrame (fieldList (imageFields b)) = .ok b ↔ readCommandImage b = some (imageFields b) := by
  rw [encodeFrame_ok]
  constructor
  · rintro ⟨hok, himage⟩
    have hread := readCommandImage_writeCommandImage hok
    rwa [writeCommandImage, ← himage] at hread
  · intro hread
    obtain ⟨himage, hok⟩ := readCommandImage_eq_some hread
    exact ⟨hok, himage.symm⟩

/-- Encode of what Decode gave is the unit itself exactly for a command frame (R62). -/
theorem reencode_iff (hlen : b.length = 17) {strict : Bool} {d : Decoded} (hdec : decodeUnit b 17 strict = .ok d) :
    encodeFrame ((d.content.drop 1).map fun g => g.setWidth 16) = .ok b ↔
      b.getD 0 0 = 171 ∧ b.getD 16 0 = 172 ∧ b.getD 15 0 = checksum (b.take 15)
        ∧ modeValid (b.getD 1 0).toNat = true ∧ ctrValid (b.getD 2 0).toNat = true
        ∧ cmdValid (b.getD 5 0).toNat = true := by
  rw [content_of_decodeUnit hdec, map_drop_take_eq_fieldList hlen, encodeFrame_imageFields_iff,
    readCommandImage_imageFields_iff hlen, firstBad_imageFields_eq_none]
  rfl

theorem imageFields_congr {b' : List Byte} (h : ∀ k, 1 ≤ k → k ≤ 14 → b.getD k 0 = b'.getD k 0) :
    imageFields b = imageFields b' := by
  simp (disch := decide) only [imageFields, imageField, h]

/-- The fields are read back from the bytes at offsets 1 to 14 of the frame (R62). -/
theorem eq_of_encodeFrame_agree {b' : List Byte} (hb : encodeFrame (fieldList f) = .ok b)
    (hb' : encodeFrame (fieldList f') = .ok b') (h : ∀ k, 1 ≤ k → k ≤ 14 → b.getD k 0 = b'.getD k 0) : f = f' := by
  obtain ⟨hok, rfl⟩ := encodeFrame_ok.1 hb
  obtain ⟨hok', rfl⟩ := encodeFrame_ok.1 hb'
  calc f = imageFields (writeCommandImage f) := (imageFields_writeCommandImage hok).symm
    _ = imageFields (writeCommandImage f') := imageFields_congr h
    _ = f' := imageFields_writeCommandImage hok'

/-- Settles O42: Decode of a frame gives its content; re-encoding is reading the unit as a command frame; and fields whose
frames agree at the offsets 1 to 14 are read back as the same. -/
theorem encodeDecodeRoundTrip : Obligations.EncodeDecodeRoundTrip := by
  refine ⟨fun f strict hfields => ?_, fun b strict d hlen hdec => reencode_iff hlen hdec, fun f f' b b' hb hb' hne => ?_⟩
  · have hlen := fieldList_length f
    have hok := (firstBad_one_eq_none hlen).2 hfields
    refine ⟨_, encodeFrame_ok.2 ⟨hok, rfl⟩, _, decodeUnit_frameOf hlen strict, fun k h1 h14 => ?_, rfl, rfl,
      (frameOf_checksum hlen).symm⟩
    have hbyte := content_getD (fieldList f) (k - 1) (by omega)
    rw [Nat.sub_add_cancel h1] at hbyte
    rw [hbyte, lowByte_toNat (fieldList_getD_le hok h1 h14)]
  · by_contra hall
    push Not at hall
    exact hne (eq_of_encodeFrame_agree hb hb' hall)

end Sys2Proof
end

section
/-! ENC and DEC (40_codec_ops.md R63 to R66): each is what Encode or Decode answers, stored; its whole effect, what it
reads, that it is idempotent, and the loop-back of one into the other. -/

namespace Sys2Proof.Machine

variable {s t u : State}

/-! ### ENC is what Encode answers, stored -/

/-- What ENC leaves of `s` when Encode answers `r` (R63). -/
def encResult (r : Except Nat (List Byte)) (s : State) : State :=
  match r with
  | .error k => encFail k s
  | .ok b => encDone b s

theorem exec_enc_eq (s : State) : exec .enc s = .next (encResult (encodeFrame s.operands) s) := by
  simp only [exec, execEnc]
  cases encodeFrame s.operands <;> rfl

theorem eq_encResult (h : exec .enc s = .next t) : t = encResult (encodeFrame s.operands) s := by
  rw [exec_enc_eq] at h
  exact (Host.Outcome.next.inj h).symm

theorem length_of_encodeFrame_operands {b : List Byte} (h : encodeFrame s.operands = .ok b) : b.length = 17 := by
  obtain ⟨-, rfl⟩ := encodeFrame_ok.1 h
  exact frameOf_length s.operands_length

theorem encodeFrame_operands_ok (h : s.FieldsOk) : encodeFrame s.operands = .ok (frameOf s.operands) :=
  encodeFrame_ok.2 ⟨firstBad_operands_none.2 h, rfl⟩

theorem operands_le (h : s.FieldsOk) : ∀ v ∈ s.operands, v.toNat ≤ 255 := by
  intro v hv
  rw [State.operands_eq] at hv
  obtain ⟨j, hj, rfl⟩ := List.mem_map.1 hv
  have hj14 : j < 14 := List.mem_range.1 hj
  exact fieldOk_le (h (j + 1) (by omega) (by omega))

theorem sum_operands (s : State) : (s.operands.map BitVec.toNat).sum = s.fieldSum := by
  rw [State.operands_eq, List.map_map]
  rfl

/-- Settles O30: Encode answers the frame of the operands, and ENC stores it byte for byte. -/
theorem encWritesTheFrame : Obligations.EncWritesTheFrame := by
  intro s hwf hok
  have hlen := s.operands_length
  have hbyte := encDone_byteAt hwf (frameOf_length hlen)
  refine ⟨encDone (frameOf s.operands) s, execEnc_ok hok, ?_, fun k h1 h14 => ?_, ?_, ?_, fun k hk => ?_, rfl, ?_,
    statusWord_encOk, rfl, rfl, rfl, ?_⟩
  · rw [hbyte, if_pos (by omega), frameOf_start]
  · rw [hbyte, if_pos (by omega), frameOf_field_toNat hlen (firstBad_operands_none.2 hok) h1 h14,
      State.operands_getD s (k - 1) (by omega), Nat.sub_add_cancel h1]
  · rw [hbyte, if_pos (by omega), frameOf_checksum hlen, checksum_content (operands_le hok), sum_operands]
  · rw [hbyte, if_pos (by omega), frameOf_stop hlen]
  · rw [hbyte, if_neg (by omega)]
  · rw [hbyte, if_pos (by omega), encDone_csum]
  · simp

theorem operands_congr {s' : State} (h : ∀ k, 1 ≤ k → k ≤ 14 → s'.field k = s.field k) :
    s'.operands = s.operands := by
  rw [State.operands_eq, State.operands_eq]
  refine List.map_congr_left fun j hj => ?_
  have hj14 : j < 14 := List.mem_range.1 hj
  exact h (j + 1) (by omega) (by omega)

/-- Settles O32: equal operands give Encode one answer, and what ENC stores of it does not look at the state. -/
theorem encReadsOnlyTheNamedFields : Obligations.EncReadsOnlyTheNamedFields := by
  intro s s' t t' hwf hwf' hagree henc henc'
  have hops : s'.operands = s.operands := operands_congr hagree
  rw [eq_encResult henc, eq_encResult henc', hops]
  cases hframe : encodeFrame s.operands with
  | error k =>
    refine ⟨⟨_, encFail_outbox k, encFail_outbox k⟩, rfl, fun herr => ?_⟩
    exact absurd ((encFail_statusErr k).symm.trans herr) (by decide)
  | ok b =>
    have hlen := length_of_encodeFrame_operands hframe
    refine ⟨⟨_, encDone_outbox b, encDone_outbox b⟩, rfl, fun _ => ⟨fun k hk => ?_, rfl, rfl⟩⟩
    have hk17 : k < 17 := by omega
    calc (encDone b s').byteAt k = b.getD k 0 := by rw [encDone_byteAt hwf' hlen, if_pos hk17]
      _ = (encDone b s).byteAt k := by rw [encDone_byteAt hwf hlen, if_pos hk17]

theorem encResult_f (r : Except Nat (List Byte)) : (encResult r s).f = s.f := by
  cases r <;> rfl

theorem encDone_sameBlock_again (hwf : s.buf.wf = true) {b : List Byte} (hb : b.length = 17) :
    SameBlock (encDone b s) (encDone b (encDone b s)) where
  f_eq := rfl
  byte_eq k := by
    have hwf' : (encDone b s).buf.wf = true := Memory.writeFrom_wf hwf 0 b (by omega)
    rw [encDone_byteAt hwf' hb, encDone_byteAt hwf hb]
    split <;> rfl
  blen_eq := rfl
  csum_eq := rfl
  ctrl_eq := rfl
  status_eq := rfl

/-- Settles O33: the first ENC leaves the operands alone, so the second stores the same answer of Encode again. -/
theorem encIsIdempotent : Obligations.EncIsIdempotent := by
  intro s t u hwf h1 h2
  have ht := eq_encResult h1
  have hops : t.operands = s.operands := State.operands_of_f (ht ▸ encResult_f _)
  rw [eq_encResult h2, hops, ht]
  cases hframe : encodeFrame s.operands with
  | error k => exact ⟨rfl, fun _ => rfl, rfl, rfl, rfl, rfl⟩
  | ok b => exact encDone_sameBlock_again hwf (length_of_encodeFrame_operands hframe)

/-! ### DEC is what Decode answers, stored -/

/-- What DEC leaves of `s` when Decode answers `r` (R65). -/
def decResult (r : Except Malformed Decoded) (s : State) : State :=
  match r with
  | .error .length => decFailLength s
  | .error (.checksum computed) => decFailChecksum computed s
  | .ok d => decDone d s

/-- What DEC has Decode answer: the buffer, `BLEN` bytes of it, at the strictness of `CTRL` (R65). -/
def State.decoding (s : State) : Except Malformed Decoded := decodeUnit s.frame s.blen.toNat s.strict

theorem exec_dec_eq (s : State) : exec .dec s = .next (decResult s.decoding s) := by
  simp only [exec, execDec, State.decoding]
  rcases decodeUnit s.frame s.blen.toNat s.strict with (_ | _) | _ <;> rfl

theorem eq_decResult (h : exec .dec s = .next t) : t = decResult s.decoding s := by
  rw [exec_dec_eq] at h
  exact (Host.Outcome.next.inj h).symm

theorem exec_dec_ok {d : Decoded} (h : s.decoding = .ok d) : exec .dec s = .next (decDone d s) := by
  rw [exec_dec_eq, h, decResult]

theorem checksum_frame_eq_iff (s : State) :
    checksum (s.frame.take 15) = s.byteAt 15 ↔ s.byteSum % 256 = (s.byteAt 15).toNat := by
  rw [← BitVec.toNat_inj, State.checksum_frame]
  rfl

/-- Seventeen bytes whose checksum matches or need not match are decoded (R60, R65). -/
theorem decoding_ok (hlen : s.blen = 17) (h : checksum (s.frame.take 15) = s.byteAt 15 ∨ s.strict = false) :
    s.decoding = .ok { content := s.frame.take 15, crcOk := checksum (s.frame.take 15) == s.byteAt 15,
                       sum := checksum (s.frame.take 15) } := by
  rw [← State.frame_getD s 15 (by omega)] at h ⊢
  rw [State.decoding, hlen]
  exact decodeUnit_ok h

theorem decDone_field (d : Decoded) {k : Nat} (hk : k ≤ 14) : (decDone d s).field k = zext16 (d.content.getD k 0) := by
  rw [← State.setFields_field s d.content k hk]
  exact State.field_of_f ((decDone_f d).trans (State.setFields_f s d.content).symm) k

theorem frame_take_getD (s : State) {k : Nat} (hk : k ≤ 14) : (s.frame.take 15).getD k 0 = s.byteAt k := by
  have hk15 : k < 15 := by omega
  simp [State.frame_take, List.getD, hk15]

theorem decDone_status_eq (d : Decoded) : (decDone d s).status = if d.crcOk then 0x0032#16 else 0x0012#16 := by
  rw [decDone_status]
  cases d.crcOk <;> decide

/-- Settles O36: Decode answers the content and the checksum of the buffer, and DEC stores them. -/
theorem decDeliversTheFields : Obligations.DecDeliversTheFields := by
  intro s hlen h
  have hmatch := checksum_frame_eq_iff s
  have hdec := decoding_ok hlen (h.imp_left hmatch.2)
  refine ⟨_, exec_dec_ok hdec, fun k hk => ?_, State.checksum_frame s, ?_,
    State.byteAt_of_buf (decDone_buf _), decDone_blen _, decDone_ctrl _, decDone_inbox _, ?_⟩
  · rw [decDone_field _ hk, frame_take_getD s hk, zext16]
  · rw [decDone_status_eq]
    simp only [beq_iff_eq, hmatch]
  · simp

theorem decoding_congr {s' : State} (hblen : s'.blen = s.blen) (hbyte : ∀ k, k ≤ 15 → s'.byteAt k = s.byteAt k)
    (hstrict : s'.strict = s.strict) : s'.decoding = s.decoding := by
  have htake : s'.frame.take 15 = s.frame.take 15 := by
    rw [State.frame_take, State.frame_take]
    exact List.map_congr_left fun k hk => hbyte k (List.mem_range.1 hk).le
  have hlast : s'.frame.getD 15 0 = s.frame.getD 15 0 := by
    rw [State.frame_getD _ 15 (by omega), State.frame_getD _ 15 (by omega), hbyte 15 le_rfl]
  simp only [State.decoding, decodeUnit, hblen, hstrict, htake, hlast]

theorem decoding_ne_length (hlen : s.blen = 17) : s.decoding ≠ .error .length := by
  have hnat : s.blen.toNat = 17 := by rw [hlen]; rfl
  obtain ⟨hne, -⟩ | ⟨-, -, -, hd⟩ | ⟨-, -, hd⟩ := decodeUnit_cases s.frame s.blen.toNat s.strict
  · exact absurd hnat hne
  · simp [State.decoding, hd]
  · simp [State.decoding, hd]

theorem decFailLength_statusErr : statusErr (decFailLength s).status = errMalformed :=
  statusErr_statusWord lastDec errMalformed false false 0

theorem decFailChecksum_statusErr (c : Byte) : statusErr (decFailChecksum c s).status = errMalformed :=
  statusErr_statusWord lastDec errMalformed true false 0

/-- Settles O37: what DEC names to Decode is all it reads, and what it stores of the answer does not look at the state. -/
theorem decReadsOnlyTheFrame : Obligations.DecReadsOnlyTheFrame := by
  intro s s' t t' hblen hbyte hstrict hdec hdec'
  rw [eq_decResult hdec, eq_decResult hdec', decoding_congr hblen hbyte hstrict]
  rcases hr : s.decoding with (_ | c) | d
  · refine ⟨⟨_, decFailLength_outbox, decFailLength_outbox⟩, rfl, fun hlen => ?_, fun herr => ?_⟩
    · exact absurd hr (decoding_ne_length hlen)
    · exact absurd (decFailLength_statusErr.symm.trans herr) (by decide)
  · refine ⟨⟨_, decFailChecksum_outbox c, decFailChecksum_outbox c⟩, rfl, fun _ => rfl, fun herr => ?_⟩
    exact absurd ((decFailChecksum_statusErr c).symm.trans herr) (by decide)
  · exact ⟨⟨_, decDone_outbox d, decDone_outbox d⟩, rfl, fun _ => rfl, fun _ => rfl⟩

theorem decResult_buf (r : Except Malformed Decoded) (s : State) : (decResult r s).buf = s.buf := by
  rcases r with (_ | _) | _ <;> simp [decResult]

theorem decResult_blen (r : Except Malformed Decoded) (s : State) : (decResult r s).blen = s.blen := by
  rcases r with (_ | _) | _ <;> simp [decResult]

theorem decResult_ctrl (r : Except Malformed Decoded) (s : State) : (decResult r s).ctrl = s.ctrl := by
  rcases r with (_ | _) | _ <;> simp [decResult]

/-- DEC writes nothing that it reads (R65). -/
theorem decResult_decoding (r : Except Malformed Decoded) (s : State) : (decResult r s).decoding = s.decoding :=
  decoding_congr (decResult_blen r s) (fun k _ => State.byteAt_of_buf (decResult_buf r s) k)
    (congrArg ctrlStrict (decResult_ctrl r s))

theorem decResult_sameBlock_again (r : Except Malformed Decoded) (s : State) :
    SameBlock (decResult r s) (decResult r (decResult r s)) where
  f_eq := by rcases r with (_ | _) | _ <;> simp [decResult]
  byte_eq := State.byteAt_of_buf (decResult_buf r _)
  blen_eq := decResult_blen r _
  csum_eq := by rcases r with (_ | _) | _ <;> simp [decResult]
  ctrl_eq := decResult_ctrl r _
  status_eq := by rcases r with (_ | _) | _ <;> simp [decResult]

/-- Settles O38: the first DEC leaves alone what it reads, so the second stores the same answer of Decode again. -/
theorem decIsIdempotent : Obligations.DecIsIdempotent := by
  intro s t u h1 h2
  have ht := eq_decResult h1
  have hagain : t.decoding = s.decoding := ht ▸ decResult_decoding _ s
  rw [eq_decResult h2, hagain, ht]
  exact decResult_sameBlock_again _ s

/-! ### The loop-back -/

/-- After a successful ENC the buffer is a frame Encode made, so Decode gives its content back (R62, R66). -/
theorem encDone_decoding (hwf : s.buf.wf = true) :
    (encDone (frameOf s.operands) s).decoding
      = .ok { content := content s.operands, crcOk := true, sum := checksum (content s.operands) } := by
  have hlen := s.operands_length
  rw [State.decoding, encDone_frame hwf (frameOf_length hlen), encDone_blen]
  exact decodeUnit_frameOf hlen _

/-- Settles O39: DEC finds the frame that ENC stored, decodes its content, and widens each byte to the field it came
from. -/
theorem decAfterEncRestoresTheFields : Obligations.DecAfterEncRestoresTheFields := by
  intro s hwf hok
  have hlen := s.operands_length
  refine ⟨_, _, execEnc_ok hok, exec_dec_ok (encDone_decoding hwf), ?_, fun k h1 h14 => ?_, ?_, ?_, ?_⟩
  · rw [decDone_field _ (by omega)]
    rfl
  · have hbyte := content_getD s.operands (k - 1) (by omega)
    rw [State.operands_getD s (k - 1) (by omega), Nat.sub_add_cancel h1] at hbyte
    rw [decDone_field _ h14, hbyte, zext16_lowByte (fieldOk_le (hok k h1 h14))]
  · rw [decDone_status_eq, if_pos rfl]
  · rw [decDone_csum, encDone_csum, frameOf_checksum hlen]
  · simp

end Sys2Proof.Machine
end

section
/-! The access operations (41_access_ops.md R67 to R74): the words that spell them, the words that are illegal, what
each writes, and the load of a whole unit by BCLR and PUSH (R56). -/

namespace Sys2Proof

namespace Machine

variable {s t u v : State} {w : CmdWord} {op idx : Byte} {imm : Half}

/-! ### Illegal words by their fields -/

theorem raisesIllegalOperation_of_illegalFields
    (h : IllegalFields (opField w).toNat (idxField w).toNat (immField w).toNat) : RaisesIllegalOperation w :=
  (illegalWordsAreExactlyThose w).1 h

theorem raisesIllegalOperation_commandWord {n : Nat} (hop : op.toNat = n)
    (h : IllegalFields n idx.toNat imm.toNat) : RaisesIllegalOperation (commandWord op idx imm) := by
  refine raisesIllegalOperation_of_illegalFields ?_
  rwa [opField_commandWord, idxField_commandWord, immField_commandWord, hop]

/-- An operation with neither `idx` nor `imm` has one legal word (R50, R67, R72). -/
theorem raisesIllegalOperation_of_plain (hplain : op = 0 ∨ op = 5) (hop : opField w = op)
    (hne : w ≠ commandWord op 0 0) : RaisesIllegalOperation w := by
  have hnat : op.toNat = 0 ∨ op.toNat = 5 := hplain.imp (congrArg BitVec.toNat) (congrArg BitVec.toNat)
  have hused : (idxField w).toNat ≠ 0 ∨ (immField w).toNat ≠ 0 := by
    by_contra! hzero
    obtain ⟨hidx, himm⟩ := hzero
    refine hne (commandWord_eq_of_fields (congrArg BitVec.toNat hop) ?_ ?_).symm
    · exact BitVec.eq_of_toNat_eq hidx
    · exact BitVec.eq_of_toNat_eq himm
  refine raisesIllegalOperation_of_illegalFields ?_
  rw [hop, IllegalFields]
  omega

/-- A read with its index above `top`, the last of its space, or with a non-zero `imm` (R50, R69, R71, R73). -/
theorem raisesIllegalOperation_read {top : Nat}
    (hread : op.toNat = 2 ∧ top = 14 ∨ op.toNat = 4 ∧ top = 16 ∨ op.toNat = 8 ∧ top = 3)
    (h : top < idx.toNat ∨ imm ≠ 0) : RaisesIllegalOperation (commandWord op idx imm) := by
  have hfields : top < idx.toNat ∨ imm.toNat ≠ 0 := h.imp_right BitVec.toNat_ne_iff_ne.2
  refine raisesIllegalOperation_commandWord rfl ?_
  rw [IllegalFields]
  omega

/-! ### Responses as whole states -/

theorem State.respond_eq (s : State) (v : Half) :
    s.respond v = { s with outbox := s.outbox ++ [.response (v.setWidth 32)] } := by
  rw [← responseWord_ok]
  rfl

theorem State.respond_zext16_eq (s : State) (b : Byte) :
    s.respond (zext16 b) = { s with outbox := s.outbox ++ [.response (b.setWidth 32)] } := by
  rw [← responseWord_zext]
  rfl

theorem State.respond_zero_eq (s : State) :
    s.respond 0 = { s with outbox := s.outbox ++ [.response 0x00000000#32] } :=
  s.respond_eq 0

/-! ### What an operation does when its index is in its space -/

theorem exec_wrf_inside (h : idx.toNat ≤ 14) :
    exec (.wrf idx imm) s = .next ((s.setField idx.toNat imm).respond 0) := if_pos (fieldIndexOk_iff.2 h)

theorem exec_rdf_inside (h : idx.toNat ≤ 14) : exec (.rdf idx) s = .next (s.respond (s.field idx.toNat)) :=
  if_pos (fieldIndexOk_iff.2 h)

theorem exec_rdb_inside (h : idx.toNat ≤ 16) : exec (.rdb idx) s = .next (s.respond (zext16 (s.byteAt idx.toNat))) :=
  if_pos (bufferOffsetOk_iff.2 h)

theorem exec_rdsr_inside (h : idx.toNat ≤ 3) : exec (.rdsr idx) s = .next (s.respond (s.sysReg idx.toNat)) :=
  if_pos (sysRegOk_iff.2 h)

theorem exec_wrsr_zero : exec (.wrsr 0 imm) s = .next ((s.writeCtrl imm).respond 0) := rfl

/-! ### NOP and BCLR -/

/-- Settles O19: the word with all fields 0 is the one legal word of `op` 0, and NOP is its response alone. -/
theorem nopChangesNothing : Obligations.NopChangesNothing := by
  refine ⟨everyInstructionDecodesBack .nop rfl, fun w hop hne => ?_, fun s => ?_⟩
  · exact raisesIllegalOperation_of_plain (.inl rfl) hop hne
  · exact congrArg Host.Outcome.next s.respond_zero_eq

/-- Settles O24: the word with the other fields 0 is the one legal word of `op` 5, and BCLR sets the count and
responds. -/
theorem bclrClearsTheCountOnly : Obligations.BclrClearsTheCountOnly := by
  refine ⟨everyInstructionDecodesBack .bclr rfl, fun w hop hne => ?_, fun s => ?_⟩
  · exact raisesIllegalOperation_of_plain (.inr rfl) hop hne
  · exact congrArg Host.Outcome.next (s.setBlen 0).respond_zero_eq

/-! ### WRF -/

/-- `F[0]` is no operand of ENC (R12). -/
theorem State.setField_zero_operands (s : State) (v : Half) : (s.setField 0 v).operands = s.operands :=
  operands_congr fun k h1 _ => by rw [State.setField_field s 0 k v (by omega), if_neg (by omega)]

theorem exec_wrf_zero : exec (.wrf 0 imm) s = .next ((s.setField 0 imm).respond 0) := rfl

/-- What ENC writes does not depend on `F[0]`, `CTRL`, the old `STATUS` or the host's side; a failed one leaves `B`,
`BLEN` and `CSUM` as they were (R12, R63). -/
theorem exec_enc_congr (hops : t.operands = s.operands) (hbuf : t.buf = s.buf) (hblen : t.blen = s.blen)
    (hcsum : t.csum = s.csum) (ht : exec .enc t = .next u) (hs : exec .enc s = .next v) :
    u.status = v.status ∧ (∀ k, u.byteAt k = v.byteAt k) ∧ u.blen = v.blen ∧ u.csum = v.csum := by
  rw [eq_encResult ht, eq_encResult hs, hops]
  cases encodeFrame s.operands with
  | error k => exact ⟨rfl, State.byteAt_of_buf hbuf, hblen, hcsum⟩
  | ok b => exact ⟨rfl, State.byteAt_of_buf (congrArg (Memory.writeFrom · 0 b) hbuf), rfl, rfl⟩

/-- Settles O20: the register written reads back and no other moves; and ENC, whose operands leave out `F[0]`, gets the
same answer of Encode after a WRF of it. -/
theorem wrfWritesOneField : Obligations.WrfWritesOneField := by
  intro s idx imm
  refine ⟨fun hidx => ?_, fun hidx => ?_, fun t u v hwrf henct hencs => ?_⟩
  · have hfield k := State.setField_field s idx.toNat k imm hidx
    refine ⟨everyInstructionDecodesBack (.wrf idx imm) (fieldIndexOk_iff.2 hidx), _, exec_wrf_inside hidx,
      (hfield _).trans (if_pos rfl), fun k _ hk => (hfield k).trans (if_neg hk), fun _ => rfl,
      rfl, rfl, rfl, rfl, rfl, ?_⟩
    simp
  · refine raisesIllegalOperation_commandWord (op := 1) (n := 1) rfl ?_
    rw [IllegalFields]
    omega
  · obtain rfl := Host.Outcome.next.inj (exec_wrf_zero.symm.trans hwrf)
    have hops : ((s.setField 0 imm).respond 0).operands = s.operands := s.setField_zero_operands imm
    exact exec_enc_congr hops rfl rfl rfl henct hencs

/-! ### The reads -/

/-- A DEC that raises no error delivers bytes (R29, R65). -/
theorem field_le_of_exec_dec (h : exec .dec s = .next t) (herr : statusErr t.status = 0) {k : Nat} (hk : k ≤ 14) :
    (t.field k).toNat ≤ 255 := by
  obtain rfl := eq_decResult h
  revert herr
  rcases s.decoding with (_ | c) | d <;> intro herr
  · exact absurd (decFailLength_statusErr.symm.trans herr) (by decide)
  · exact absurd ((decFailChecksum_statusErr c).symm.trans herr) (by decide)
  · have hfield : (decResult (.ok d) s).field k = zext16 (d.content.getD k 0) := decDone_field d hk
    rw [hfield, zext16_toNat]
    have := (d.content.getD k 0).isLt
    omega

/-- Settles O21: RDF is its response; the register holds what reset, a WRF or a successful DEC left in it. -/
theorem rdfReturnsTheField : Obligations.RdfReturnsTheField := by
  intro s idx
  refine ⟨fun hidx => ⟨everyInstructionDecodesBack (.rdf idx) (fieldIndexOk_iff.2 hidx), ?_⟩, fun imm h => ?_,
    fun hidx => ⟨resetStateValues.1 _ hidx, fun v t hwrf => ?_, fun t hdec herr => ?_⟩⟩
  · rw [exec_rdf_inside hidx, State.respond_eq]
  · exact raisesIllegalOperation_read (op := 2) (.inl ⟨rfl, rfl⟩) h
  · obtain rfl := Host.Outcome.next.inj ((exec_wrf_inside hidx).symm.trans hwrf)
    exact (State.setField_field s _ _ _ hidx).trans (if_pos rfl)
  · exact field_le_of_exec_dec hdec herr hidx

/-- Settles O23: RDB is its response, the byte zero-extended. -/
theorem rdbReturnsTheByte : Obligations.RdbReturnsTheByte := by
  intro s idx
  refine ⟨fun hidx => ⟨everyInstructionDecodesBack (.rdb idx) (bufferOffsetOk_iff.2 hidx), ?_⟩,
    fun imm h => ?_⟩
  · rw [exec_rdb_inside hidx, State.respond_zext16_eq]
  · exact raisesIllegalOperation_read (op := 4) (.inr (.inl ⟨rfl, rfl⟩)) h

/-- Settles O25: RDSR is its response, the register of that number, two of the four zero-extended. -/
theorem rdsrReturnsTheRegister : Obligations.RdsrReturnsTheRegister := by
  refine ⟨fun s => ⟨?_, ?_, ?_, ?_⟩, fun idx => ⟨fun hidx => ?_, fun imm h => ?_⟩, rfl, rfl⟩
  · exact (exec_rdsr_inside (by decide)).trans (congrArg _ (s.respond_eq s.ctrl))
  · exact (exec_rdsr_inside (by decide)).trans (congrArg _ (s.respond_eq s.status))
  · exact (exec_rdsr_inside (by decide)).trans (congrArg _ (s.respond_zext16_eq s.csum))
  · exact (exec_rdsr_inside (by decide)).trans (congrArg _ (s.respond_zext16_eq s.blen))
  · exact everyInstructionDecodesBack (.rdsr idx) (sysRegOk_iff.2 hidx)
  · exact raisesIllegalOperation_read (op := 8) (.inr (.inr ⟨rfl, rfl⟩)) h

/-! ### WRSR -/

/-- Settles O26: number 0 is `CTRL`, of which a write keeps bit 0; every other number is illegal as a word (R54) and as
an operation. -/
theorem wrsrWritesStrictOnly : Obligations.WrsrWritesStrictOnly := by
  intro s idx v
  constructor
  · rintro rfl
    exact ⟨everyInstructionDecodesBack (.wrsr 0 v) rfl, _, exec_wrsr_zero, ctrlOfWrite_strict v, ctrlOfWrite_toNat v,
      (s.writeCtrl v).respond_zero_eq⟩
  · intro hidx
    have hnat : idx.toNat ≠ 0 := BitVec.toNat_ne_iff_ne.2 hidx
    constructor
    · refine raisesIllegalOperation_commandWord (op := 9) (n := 9) rfl ?_
      rw [IllegalFields]
      omega
    · rw [exec_wrsr_outside hnat, State.raiseIllegal_eq]

/-! ### PUSH -/

/-- What PUSH of `b` leaves of `s` (R70). -/
def pushed (b : Byte) (s : State) : State := (pushCount (pushStore b s)).respond 0

theorem exec_push (b : Byte) (s : State) : exec (.push b) s = .next (pushed b s) := rfl

theorem pushed_wf (h : s.buf.wf = true) (b : Byte) : (pushed b s).buf.wf = true := by
  rw [pushed, State.respond_buf, pushCount_buf]
  exact pushStore_wf h b

theorem pushed_byteAt (h : s.buf.wf = true) (b : Byte) (k : Nat) :
    (pushed b s).byteAt k = if s.blen.toNat ≤ 16 ∧ k = s.blen.toNat then b else s.byteAt k := by
  rw [← pushStore_byteAt h]
  exact State.byteAt_of_buf pushCount_buf k

theorem pushed_blen (b : Byte) (s : State) : (pushed b s).blen.toNat = min (s.blen.toNat + 1) 255 := by
  rw [pushed, State.respond_blen, pushCount_toNat, pushStore_blen]

@[simp] theorem pushed_f (b : Byte) (s : State) : (pushed b s).f = s.f := by simp [pushed]
@[simp] theorem pushed_csum (b : Byte) (s : State) : (pushed b s).csum = s.csum := by simp [pushed]
@[simp] theorem pushed_ctrl (b : Byte) (s : State) : (pushed b s).ctrl = s.ctrl := by simp [pushed]
@[simp] theorem pushed_status (b : Byte) (s : State) : (pushed b s).status = s.status := by simp [pushed]
@[simp] theorem pushed_inbox (b : Byte) (s : State) : (pushed b s).inbox = s.inbox := by simp [pushed]
@[simp] theorem pushed_outbox (b : Byte) (s : State) :
    (pushed b s).outbox = s.outbox ++ [.response 0x00000000#32] := by simp [pushed]

theorem commandWord_push (b : Byte) :
    commandWord 3 0 (zext16 b) = BitVec.ofNat 32 (0x03000000 + b.toNat) := by
  rw [commandWord, zext16_toNat]
  rfl

/-- Settles O22: the store writes the old count's offset if the buffer has it, and the count saturates. -/
theorem pushAppendsAndCounts : Obligations.PushAppendsAndCounts := by
  constructor
  · intro idx imm h
    have hfields : idx.toNat ≠ 0 ∨ 256 ≤ imm.toNat := h.imp_left BitVec.toNat_ne_iff_ne.2
    refine raisesIllegalOperation_commandWord (op := 3) (n := 3) rfl ?_
    rw [IllegalFields]
    omega
  · intro s b hwf
    refine ⟨?_, pushed b s, exec_push b s, fun hle => ?_, fun k hk => ?_, pushed_blen b s,
      fun i _ => State.field_of_f (pushed_f b s) i, pushed_csum b s, pushed_ctrl b s, pushed_status b s,
      pushed_inbox b s, pushed_outbox b s⟩
    · rw [← commandWord_push]
      exact everyInstructionDecodesBack (.push b) rfl
    · rw [pushed_byteAt hwf, if_pos ⟨hle, rfl⟩]
    · rw [pushed_byteAt hwf, if_neg fun ⟨hle, heq⟩ => hk hle heq]

/-! ### A unit pushed byte by byte -/

/-- What the pushes of the bytes of a list leave of `s`. -/
def pushedAll : List Byte → State → State
  | [], s => s
  | b :: bs, s => pushedAll bs (pushed b s)

theorem execAll_map_push (bs : List Byte) (s : State) : execAll (bs.map .push) s = .next (pushedAll bs s) := by
  induction bs generalizing s with
  | nil => rfl
  | cons b bs ih => exact ih (pushed b s)

theorem execAll_framePseudo (bs : List Byte) (s : State) :
    execAll (framePseudo bs) s = .next (pushedAll bs ((s.setBlen 0).respond 0)) :=
  execAll_map_push bs _

theorem pushedAll_blen (bs : List Byte) (s : State) :
    (pushedAll bs s).blen.toNat = min (s.blen.toNat + bs.length) 255 := by
  induction bs generalizing s with
  | nil =>
    have := s.blen.isLt
    rw [pushedAll, List.length_nil]
    omega
  | cons b bs ih =>
    rw [pushedAll, ih, pushed_blen, List.length_cons]
    omega

/-- The bytes land one after the other from the old count on, as far as the buffer goes. Once the count has saturated
it stands above the buffer, so no later byte is stored. -/
theorem pushedAll_byteAt (bs : List Byte) (h : s.buf.wf = true) (k : Nat) :
    (pushedAll bs s).byteAt k =
      if s.blen.toNat ≤ k ∧ k < s.blen.toNat + bs.length ∧ k ≤ 16 then bs.getD (k - s.blen.toNat) 0
      else s.byteAt k := by
  induction bs generalizing s with
  | nil => rw [pushedAll, List.length_nil, if_neg (by omega)]
  | cons b bs ih =>
    rw [pushedAll, ih (pushed_wf h b), pushed_byteAt h, pushed_blen, List.length_cons]
    by_cases hfirst : s.blen.toNat ≤ 16 ∧ k = s.blen.toNat
    · obtain ⟨hle, rfl⟩ := hfirst
      rw [if_neg (by omega), if_pos ⟨hle, rfl⟩, if_pos (by omega), Nat.sub_self, List.getD_cons_zero]
    · rw [if_neg hfirst]
      by_cases hlater : s.blen.toNat + 1 ≤ k ∧ k < s.blen.toNat + 1 + bs.length ∧ k ≤ 16
      · have hindex : k - s.blen.toNat = k - min (s.blen.toNat + 1) 255 + 1 := by omega
        rw [if_pos (by omega), if_pos (by omega), hindex, List.getD_cons_succ]
      · rw [if_neg (by omega), if_neg (by omega)]

/-- What one PUSH leaves unchanged, any number of them leaves unchanged. -/
theorem pushedAll_keeps {α : Type} {reader : State → α} (hkeeps : ∀ b s, reader (pushed b s) = reader s)
    (bs : List Byte) (s : State) : reader (pushedAll bs s) = reader s := by
  induction bs generalizing s with
  | nil => rfl
  | cons b bs ih => rw [pushedAll, ih, hkeeps]

theorem pushedAll_outbox (bs : List Byte) (s : State) :
    (pushedAll bs s).outbox = s.outbox ++ List.replicate bs.length (.response 0x00000000#32) := by
  induction bs generalizing s with
  | nil => rw [pushedAll, List.length_nil, List.replicate_zero, List.append_nil]
  | cons b bs ih =>
    rw [pushedAll, ih, pushed_outbox, List.length_cons, List.replicate_succ, List.append_assoc, List.singleton_append]

/-- Settles O28: BCLR starts the count at 0, so the pushes store from offset 0 on and count the list's length. -/
theorem pushedUnitIsLoaded : Obligations.PushedUnitIsLoaded := by
  intro s b hwf
  have hzero : ((s.setBlen 0).respond 0).blen.toNat = 0 := rfl
  have hbyte : ∀ k, (pushedAll b ((s.setBlen 0).respond 0)).byteAt k
      = if k < b.length ∧ k ≤ 16 then b.getD k 0 else s.byteAt k := by
    intro k
    rw [pushedAll_byteAt (s := (s.setBlen 0).respond 0) b hwf, hzero]
    simp
  refine ⟨_, execAll_framePseudo b s, fun k hk => ?_, fun k hk => ?_, ?_, pushedAll_keeps pushed_f b _,
    pushedAll_keeps pushed_csum b _, pushedAll_keeps pushed_ctrl b _, pushedAll_keeps pushed_status b _, ?_⟩
  · rw [hbyte, if_pos (by omega)]
  · rw [hbyte, if_neg (by omega)]
  · rw [pushedAll_blen, hzero, Nat.zero_add]
  · simp [pushedAll_outbox, List.replicate_succ]

end Machine

end Sys2Proof
end

section
/-! The errors of the block as whole states (60_exceptions.md R75 to R79, R85): what each writes, what it answers, and that
none of them stops the block. -/

namespace Sys2Proof.Machine

variable {s : State}

/-! ### Nothing stops the block -/

/-- Settles O8: a wait, a reset and a rejection are next states by themselves, and every instruction answers one. -/
theorem noStepStops : Obligations.NoStepStops := by
  intro s
  obtain ⟨-, hst⟩ | ⟨_, -, hst⟩ | ⟨_, _, i, -, -, hst⟩ | ⟨_, _, _, -, -, hst⟩ := step_cases s <;> rw [hst]
  · exact ⟨_, rfl⟩
  · exact ⟨_, rfl⟩
  · obtain ⟨t, -, hexec, -⟩ := exec_answers i s.takeEvent
    exact ⟨t, hexec⟩
  · exact ⟨_, rfl⟩

/-! ### A rejected command word -/

/-- Settles O2: a word the decoder rejects raises IllegalOperation, which is one answer more and nothing else. -/
theorem illegalWordChangesNothing : Obligations.IllegalWordChangesNothing :=
  fun s _ rest _ hin hdec => raisesIllegalOperation_of_decode_error hdec s rest hin

/-! ### The errors as whole states -/

/-- A failed ENC (R63, R76). -/
theorem encFail_eq {k : Nat} (h14 : k ≤ 14) (s : State) :
    encFail k s = { s with
      status := BitVec.ofNat 16 (64 * k + 5)
      outbox := s.outbox ++ [.response 0x01000000#32] } := by
  rw [← statusWord_encBad h14, ← responseWord_encodeRange]
  rfl

/-- A DEC that fails by length (R65, R77). -/
theorem decFailLength_eq (s : State) :
    decFailLength s = { s with status := 0x000A#16, outbox := s.outbox ++ [.response 0x02000000#32] } := by
  rw [← statusWord_decLength, ← responseWord_malformed]
  rfl

/-- A DEC that fails by checksum (R65, R78). -/
theorem decFailChecksum_eq (c : Byte) (s : State) :
    decFailChecksum c s = { s with
      csum := c
      status := 0x001A#16
      outbox := s.outbox ++ [.response 0x02000000#32] } := by
  rw [← statusWord_decChecksum, ← responseWord_malformed]
  rfl

/-! ### ENC with a bad field -/

/-- Settles O31: the first bad operand that the search finds is the lowest, and ENC fails at it. -/
theorem encReportsTheLowestBadField : Obligations.EncReportsTheLowestBadField := by
  intro s k h1 h14 hbelow hbad
  have hfirst : firstBad 1 s.operands = some k := firstBad_operands.2 ⟨h1, h14, hbad, hbelow⟩
  calc exec .enc s = .next (encFail k s) := execEnc_bad hfirst
    _ = _ := by rw [encFail_eq h14]

/-! ### DEC of a unit that is no frame -/

/-- A length other than 17 is judged before `STRICT` is looked at (R77, R82). -/
theorem decoding_length (hlen : s.blen ≠ 17) : s.decoding = .error .length :=
  decodeUnit_length (BitVec.toNat_ne_iff_ne.2 hlen)

/-- A mismatch of a strict DEC is Decode's checksum error (R60, R78). -/
theorem decoding_strict (hlen : s.blen = 17) (hne : checksum (s.frame.take 15) ≠ s.byteAt 15)
    (hstrict : s.strict = true) : s.decoding = .error (.checksum (checksum (s.frame.take 15))) := by
  rw [← State.frame_getD s 15 (by omega)] at hne
  rw [State.decoding, hlen]
  exact decodeUnit_strict hne hstrict

theorem checksum_frame_eq_ofNat (s : State) : checksum (s.frame.take 15) = BitVec.ofNat 8 s.byteSum := by
  rw [checksum, State.frame_take, List.map_map]
  rfl

/-- Settles O34: Decode answers its length error, whatever `STRICT` is. -/
theorem decWrongLengthFails : Obligations.DecWrongLengthFails := by
  intro s hlen
  rw [exec_dec_eq, decoding_length hlen]
  exact congrArg Host.Outcome.next (decFailLength_eq s)

/-- Settles O35: under `STRICT` the mismatch is Decode's checksum error; without it DEC delivers the fields as it does of
a match, and `CRC_OK` alone differs. -/
theorem decBadChecksum : Obligations.DecBadChecksum := by
  intro s hlen hsum
  have hsum_eq := checksum_frame_eq_ofNat s
  constructor
  · intro hstrict
    have hne : checksum (s.frame.take 15) ≠ s.byteAt 15 := mt (checksum_frame_eq_iff s).1 hsum
    rw [exec_dec_eq, decoding_strict hlen hne hstrict, hsum_eq]
    exact congrArg Host.Outcome.next (decFailChecksum_eq _ s)
  · intro hstrict
    obtain ⟨t, hexec, hfield, hcsum, hstatus, -, -, -, -, hout⟩ := decDeliversTheFields s hlen (.inr hstrict)
    refine ⟨t, hexec, hstatus.trans (if_neg hsum), BitVec.eq_of_toNat_eq ?_, hfield, hout⟩
    rw [hcsum, BitVec.toNat_ofNat]

end Sys2Proof.Machine
end

section
/-! Reset and the first command after it (70_reset_and_hazards.md R89, R90; 10_state.md R23). -/

namespace Sys2Proof.Machine

variable {s : State}

/-! ### Reset as an event -/

theorem fetch_of_inbox_reset {rest : List HostEvent} (hin : s.inbox = .reset :: rest) : fetch s = .reset := by
  simp [fetch, hin]

theorem step_of_fetch_reset (hf : fetch s = .reset) : step s = .next s.takeEvent.resetBlock := by
  simp [step, hf]

theorem State.resetBlock_field (s : State) (i : Nat) : s.resetBlock.field i = State.reset.field i :=
  State.field_of_f rfl i

theorem State.resetBlock_byteAt (s : State) (k : Nat) : s.resetBlock.byteAt k = State.reset.byteAt k :=
  State.byteAt_of_buf rfl k

/-- Settles O4: the fetch finds the reset event; the block then stands as in the reset state, and of the host's lists the
one event is gone. -/
theorem resetEventResetsTheBlock : Obligations.ResetEventResetsTheBlock := by
  intro s rest hin
  obtain ⟨hfield, hbyte, -, -, -, hstrict, -⟩ := resetStateValues
  refine ⟨s.takeEvent.resetBlock, step_of_fetch_reset (fetch_of_inbox_reset hin), fun i hi => ?_, fun k hk => ?_,
    rfl, rfl, rfl, rfl, hstrict, ?_, rfl⟩
  · rw [State.resetBlock_field, hfield i hi]
  · rw [State.resetBlock_byteAt, hbyte k hk]
  · rw [State.takeEvent_of_inbox_cons hin, State.resetBlock_inbox]

/-! ### The reset state -/

theorem State.reset_field {i : Nat} (hi : i ≤ 14) : State.reset.field i = 0 := resetStateValues.1 i hi

theorem State.reset_byteAt (k : Nat) : State.reset.byteAt k = 0 := Memory.read_nil k

/-- Of the system registers `CTRL` alone is not 0 at reset, for `STRICT` is 1 (R16, R23). -/
theorem State.reset_sysReg {a : Nat} (ha : a ≠ 0) : State.reset.sysReg a = 0 := by
  unfold State.sysReg
  split
  · exact absurd rfl ha
  all_goals rfl

/-- 0 is a byte and a member of each of the three enumerations (R42, R43, R44). -/
theorem fieldOk_zero (k : Nat) : fieldOk k 0 = true :=
  fieldOk_iff.2 ⟨by decide, fun _ => by decide, fun _ => by decide, fun _ => cmdValid_of_named (.inl rfl)⟩

theorem State.reset_fieldsOk : State.reset.FieldsOk := fun k _ h14 => by
  rw [State.reset_field h14, fieldOk_zero]

theorem State.reset_fieldSum : State.reset.fieldSum = 0 := by decide

/-! ### The first command -/

/-- A response given in the reset state is the only one. -/
theorem State.reset_respond (v : Half) :
    State.reset.respond v = { State.reset with outbox := [.response (v.setWidth 32)] } :=
  State.respond_eq State.reset v

/-- Settles O53: each read responds with the reset value of what it reads; DEC finds `BLEN` = 0, not 17; ENC finds fourteen
valid zeros, whose checksum is that of the start sentinel alone. -/
theorem firstCommandAfterReset : Obligations.FirstCommandAfterReset := by
  refine ⟨fun idx hidx => ?_, fun idx hidx => ?_, ?_, fun a ha => ?_, ?_, ?_⟩
  · rw [exec_rdf_inside hidx, State.reset_field hidx, State.reset_respond]
    rfl
  · rw [exec_rdb_inside hidx, State.reset_byteAt, State.respond_zext16_eq]
    rfl
  · exact (exec_rdsr_inside (by decide)).trans (congrArg _ (State.reset_respond 1))
  · have hle : a.toNat ≤ 3 := by obtain rfl | rfl | rfl := ha <;> decide
    have hne : a.toNat ≠ 0 := by obtain rfl | rfl | rfl := ha <;> decide
    rw [exec_rdsr_inside hle, State.reset_sysReg hne, State.reset_respond]
    rfl
  · exact decWrongLengthFails State.reset (by decide)
  · obtain ⟨t, hexec, hstart, hfields, hsum, hstop, -, -, -, -, -, -, -, hout⟩ :=
      encWritesTheFrame State.reset resetStateLegal.buf_wf State.reset_fieldsOk
    refine ⟨t, hexec, hout, hstart, fun k h1 h14 => BitVec.eq_of_toNat_eq ?_, BitVec.eq_of_toNat_eq ?_, hstop⟩
    · rw [hfields k h1 h14, State.reset_field h14]
      rfl
    · rw [hsum, State.reset_fieldSum]
      rfl

end Sys2Proof.Machine
end

section
/-! The host's two lists of events and answers under any step (SPEC.md, logs 1, 2 and 3). -/

namespace Sys2Proof.Machine

/-- Settles O7: a wait finds no event to take and a reset takes its own, both without an answer; an instruction and a
rejection run after their event is taken, and each adds one answer. -/
theorem stepTakesOneEventInOrder : Obligations.StepTakesOneEventInOrder := by
  intro s t h
  obtain ⟨hin, hst⟩ | ⟨_, -, hst⟩ | ⟨_, _, i, -, -, hst⟩ | ⟨_, _, why, -, -, hst⟩ := step_cases s <;> rw [hst] at h
  · cases h
    exact ⟨by rw [hin, List.tail_nil], [], (List.append_nil _).symm, Nat.zero_le 1⟩
  · cases h
    exact ⟨State.resetBlock_inbox _, [], (List.append_nil _).symm, Nat.zero_le 1⟩
  · obtain ⟨_, a, hexec, hinbox, houtbox⟩ := exec_answers i s.takeEvent
    cases hexec.symm.trans h
    exact ⟨hinbox, [a], houtbox, Nat.le_refl 1⟩
  · cases h
    obtain ⟨a, hinbox, houtbox⟩ := reject_answers why s.takeEvent
    exact ⟨hinbox, [a], houtbox, Nat.le_refl 1⟩

end Sys2Proof.Machine
end
